-- ==== Sys2Proof/Word.lean ====
section
/-! DEFINITION. The bit vectors of the block: bytes of the buffer, 16-bit values, 3-bit table indices (R6, R8). -/

namespace Sys2Proof

/-- One 8-bit value of the buffer, bits numbered 7 down to 0 (R6). -/
abbrev Byte := BitVec 8

/-- A 16-bit value, bits numbered 15 down to 0 (R6). As a displacement or an immediate it is read in
two's complement with `BitVec.toInt`, as a direct address with `BitVec.toNat` (R8). -/
abbrev Word := BitVec 16

/-- A 3-bit register or base index, 0 to 7 (R19, R20). -/
abbrev Index := BitVec 3

end Sys2Proof
end

