-- ==== Sys2Proof/Config.lean ====
section
/-! DEFINITION. What an implementation fixes: the parameters of R5 that are not inputs of a run. -/

namespace Sys2Proof

/-- `POS_WIDTH`, the width in bits of the position register: open (R5, D6). It has no body, so nothing can
be proved of its value; the model keeps `pos` as a natural number and R227's constraint
`LEN < 2^POS_WIDTH` is a premise where it matters (log 2). -/
opaque Config.posWidth : Nat

/-- The offset of the first instruction (R51, R222, D6). -/
def Config.entryPoint : Nat := 0

/-- The most bytes one instruction consumes (R66). -/
def Config.longestInstruction : Nat := 6

/-- The byte that an offset below `LEN` holds when the list of cells does not name it: a way of writing the
buffer down, not a claim about unwritten memory, since the host loads all `LEN` bytes (log 1).
DESIGN CHOICE. -/
def Config.unlistedByte : Byte := 0

end Sys2Proof
end

