-- ==== Sys2Proof/Syntax.lean ====
section
/-! DEFINITION. The instructions the block recognises, one constructor per row of spec/opcode_table.json, and the
enumerated fields of an encoding. -/

namespace Sys2Proof

/-- `opcodeFamily`, the classification of the first byte (R15). -/
inductive Family where
  | registerOrMemoryToRegister
  | immediateToRegisterOrMemory
  | immediateToRegister
  | unrecognized
  deriving DecidableEq, Repr

/-- `direction` (R16): which operand of the first family the register is. -/
inductive Direction where
  | sourceIsRegister
  | destinationIsRegister
  deriving DecidableEq, Repr

/-- `addressingMode` (R18). -/
inductive AddressingMode where
  | registerDirect
  | memoryNoDisplacement
  | memoryByteDisplacement
  | memoryWordDisplacement
  | directAddress
  deriving DecidableEq, Repr

/-- How many bytes of a displacement or an immediate are still to come: 0, 1 or 2 (R23). -/
inductive ByteCount where
  | zero
  | one
  | two
  deriving DecidableEq, Repr

/-- The number a byte count stands for. -/
def ByteCount.toNat : ByteCount → Nat
  | .zero => 0
  | .one => 1
  | .two => 2

/-- The r/m operand with what its addressing mode needs: the pairs `(am, rm, DISP)` that `other` of
spec/42_mov_instructions.md takes. A displacement is the stored 16-bit value (R21). -/
inductive RmForm where
  | directAddress (disp : Word)
  | memoryNoDisplacement (rm : Index)
  | memoryByteDisplacement (rm : Index) (disp : Word)
  | memoryWordDisplacement (rm : Index) (disp : Word)
  | registerDirect (rm : Index)
  deriving DecidableEq, Repr

/-- One constructor per row of the opcode table, in its order. `w` is the width bit (true: 16-bit), `reg` and `rm`
the mode byte's sub-fields, `disp` and `imm` the stored 16-bit values: sign-extended where the encoding holds
one byte (R71). -/
inductive Instr where
  /-- Rows 1 to 5, `mov r/m, reg` (R140). -/
  | movRmRegDirectAddress (w : Bool) (reg : Index) (disp : Word)
  | movRmRegMemoryNoDisplacement (w : Bool) (reg rm : Index)
  | movRmRegMemoryByteDisplacement (w : Bool) (reg rm : Index) (disp : Word)
  | movRmRegMemoryWordDisplacement (w : Bool) (reg rm : Index) (disp : Word)
  | movRmRegRegisterDirect (w : Bool) (reg rm : Index)
  /-- Rows 6 to 10, `mov reg, r/m` (R141). -/
  | movRegRmDirectAddress (w : Bool) (reg : Index) (disp : Word)
  | movRegRmMemoryNoDisplacement (w : Bool) (reg rm : Index)
  | movRegRmMemoryByteDisplacement (w : Bool) (reg rm : Index) (disp : Word)
  | movRegRmMemoryWordDisplacement (w : Bool) (reg rm : Index) (disp : Word)
  | movRegRmRegisterDirect (w : Bool) (reg rm : Index)
  /-- Rows 11 to 15, `mov r/m, imm` (R142). -/
  | movRmImmDirectAddress (w : Bool) (disp imm : Word)
  | movRmImmMemoryNoDisplacement (w : Bool) (rm : Index) (imm : Word)
  | movRmImmMemoryByteDisplacement (w : Bool) (rm : Index) (disp imm : Word)
  | movRmImmMemoryWordDisplacement (w : Bool) (rm : Index) (disp imm : Word)
  | movRmImmRegisterDirect (w : Bool) (rm : Index) (imm : Word)
  /-- Row 16, `INVALID` (R145): the mode byte of the family of rows 11 to 15 with its reg sub-field not 0. -/
  | invalid (w : Bool) (modeByte : Byte)
  /-- Row 17, `mov reg, imm` (R143). -/
  | movRegImm (w : Bool) (reg : Index) (imm : Word)
  /-- Row 18, `UNRECOGNIZED` (R144): a first byte outside the three families. -/
  | unrecognized (firstByte : Byte)
  deriving DecidableEq, Repr

/-- The row of the first table part (rows 1 to 5) that an r/m operand selects. -/
def RmForm.movRmReg (w : Bool) (reg : Index) : RmForm → Instr
  | .directAddress disp => .movRmRegDirectAddress w reg disp
  | .memoryNoDisplacement rm => .movRmRegMemoryNoDisplacement w reg rm
  | .memoryByteDisplacement rm disp => .movRmRegMemoryByteDisplacement w reg rm disp
  | .memoryWordDisplacement rm disp => .movRmRegMemoryWordDisplacement w reg rm disp
  | .registerDirect rm => .movRmRegRegisterDirect w reg rm

/-- The row among rows 6 to 10 that an r/m operand selects. -/
def RmForm.movRegRm (w : Bool) (reg : Index) : RmForm → Instr
  | .directAddress disp => .movRegRmDirectAddress w reg disp
  | .memoryNoDisplacement rm => .movRegRmMemoryNoDisplacement w reg rm
  | .memoryByteDisplacement rm disp => .movRegRmMemoryByteDisplacement w reg rm disp
  | .memoryWordDisplacement rm disp => .movRegRmMemoryWordDisplacement w reg rm disp
  | .registerDirect rm => .movRegRmRegisterDirect w reg rm

/-- The row among rows 11 to 15 that an r/m operand selects. -/
def RmForm.movRmImm (w : Bool) (imm : Word) : RmForm → Instr
  | .directAddress disp => .movRmImmDirectAddress w disp imm
  | .memoryNoDisplacement rm => .movRmImmMemoryNoDisplacement w rm imm
  | .memoryByteDisplacement rm disp => .movRmImmMemoryByteDisplacement w rm disp imm
  | .memoryWordDisplacement rm disp => .movRmImmMemoryWordDisplacement w rm disp imm
  | .registerDirect rm => .movRmImmRegisterDirect w rm imm

/-- The row among rows 1 to 10 that a direction and an r/m operand select. -/
def RmForm.movRegister (d : Direction) (w : Bool) (reg : Index) (rm : RmForm) : Instr :=
  match d with
  | .sourceIsRegister => rm.movRmReg w reg
  | .destinationIsRegister => rm.movRegRm w reg

end Sys2Proof
end

