-- ==== Sys2Proof/WellFormed.lean ====
section
/-! DEFINITION. Which instruction terms some bytes encode. The checks are written as the ranges the rules give,
not with the decoder's functions, so that the round trips of Decode.lean test one against the other. -/

namespace Sys2Proof

/-- The stored value of a one-byte field: -128 to 127 (R71, R98). -/
def isSignedByte (v : Word) : Bool := decide (-128 ≤ v.toInt ∧ v.toInt ≤ 127)

/-- A one-byte immediate (`w = 0`) is stored sign-extended; a two-byte one is any value (R71). -/
def immediateFits (w : Bool) (imm : Word) : Bool := w || isSignedByte imm

/-- The 234 first bytes outside the three families, as R75 lists them. -/
def isUnrecognizedByte (b : Byte) : Bool :=
  decide (b.toNat ≤ 0x87 ∨ (0x8C ≤ b.toNat ∧ b.toNat ≤ 0xAF) ∨ (0xC0 ≤ b.toNat ∧ b.toNat ≤ 0xC5) ∨ 0xC8 ≤ b.toNat)

/-- Whether an instruction term has an encoding. With `mod = 0` the index 6 is the direct address (R64, R97), so
no form without displacement holds it. -/
def WellFormed : Instr → Bool
  | .movRmRegDirectAddress _ _ _ => true
  | .movRmRegMemoryNoDisplacement _ _ rm => rm != 6#3
  | .movRmRegMemoryByteDisplacement _ _ _ disp => isSignedByte disp
  | .movRmRegMemoryWordDisplacement _ _ _ _ => true
  | .movRmRegRegisterDirect _ _ _ => true
  | .movRegRmDirectAddress _ _ _ => true
  | .movRegRmMemoryNoDisplacement _ _ rm => rm != 6#3
  | .movRegRmMemoryByteDisplacement _ _ _ disp => isSignedByte disp
  | .movRegRmMemoryWordDisplacement _ _ _ _ => true
  | .movRegRmRegisterDirect _ _ _ => true
  | .movRmImmDirectAddress w _ imm => immediateFits w imm
  | .movRmImmMemoryNoDisplacement w rm imm => rm != 6#3 && immediateFits w imm
  | .movRmImmMemoryByteDisplacement w _ disp imm => isSignedByte disp && immediateFits w imm
  | .movRmImmMemoryWordDisplacement w _ _ imm => immediateFits w imm
  | .movRmImmRegisterDirect w _ imm => immediateFits w imm
  | .invalid _ modeByte => decide (modeByte.toNat / 8 % 8 ≠ 0)
  | .movRegImm w _ imm => immediateFits w imm
  | .unrecognized b => isUnrecognizedByte b

end Sys2Proof
end

