-- ==== Sys2Proof/Decode.lean ====
section
/-! DEFINITION. The bit-field extractor (spec/40_field_extractor.md), the byte-level decoder and, after it, the encoder,
both written from the tables of spec/30_encoding.md. The machine gathers the same fields one cursor request at a
time (Machine/Transitions.lean) with the same extractor functions. -/

namespace Sys2Proof

/-! ### Functions of the first byte -/

/-- Classification of the first byte by its top 6, 7 or 4 bits (R91). -/
def classify (b0 : Byte) : Family :=
  if b0 &&& 0xFC = 0x88 then .registerOrMemoryToRegister
  else if b0 &&& 0xFE = 0xC6 then .immediateToRegisterOrMemory
  else if b0 &&& 0xF0 = 0xB0 then .immediateToRegister
  else .unrecognized

/-- Bit 1 of the first byte (R92). -/
def dirBit (b0 : Byte) : Direction :=
  if b0.getLsbD 1 then .destinationIsRegister else .sourceIsRegister

/-- The width bit: bit 0, but bit 3 in the family without a mode byte (R93). R93 gives no value for `unrecognized`; bit 0 there is
the model's, has no meaning and is never stored (R90; log 15). DESIGN CHOICE. -/
def widthBit (f : Family) (b0 : Byte) : Bool :=
  match f with
  | .registerOrMemoryToRegister => b0.getLsbD 0
  | .immediateToRegisterOrMemory => b0.getLsbD 0
  | .immediateToRegister => b0.getLsbD 3
  | .unrecognized => b0.getLsbD 0

/-- Bits 2:0 of the first byte (R94). -/
def regOfOpcode (b0 : Byte) : Index := b0.extractLsb' 0 3

/-! ### Functions of the mode byte (R95) -/

/-- Bits 7:6. -/
def modeBits (b1 : Byte) : BitVec 2 := b1.extractLsb' 6 2

/-- Bits 5:3. -/
def regBits (b1 : Byte) : Index := b1.extractLsb' 3 3

/-- Bits 2:0. -/
def rmBits (b1 : Byte) : Index := b1.extractLsb' 0 3

/-- The number of immediate bytes (R96). R96 gives no value for `unrecognized`; none is the model's, and no transition asks for it
(log 15). DESIGN CHOICE. -/
def nImm (f : Family) (wide : Bool) : ByteCount :=
  match f with
  | .registerOrMemoryToRegister => .zero
  | .immediateToRegisterOrMemory => if wide then .two else .one
  | .immediateToRegister => if wide then .two else .one
  | .unrecognized => .zero

/-- The addressing mode and the number of displacement bytes (R97, R64). -/
def modeOf (mod : BitVec 2) (rm : Index) : AddressingMode × ByteCount :=
  if mod = 0#2 then
    if rm = 6#3 then (.directAddress, .two) else (.memoryNoDisplacement, .zero)
  else if mod = 1#2 then (.memoryByteDisplacement, .one)
  else if mod = 2#2 then (.memoryWordDisplacement, .two)
  else (.registerDirect, .zero)

/-! ### The block's arithmetic on values -/

/-- The stored value of a one-byte field, sign-extended (R98). -/
def fromByte (b : Byte) : Word := b.signExtend 16

/-- The 16 bits of two consecutive bytes, the first the low-order one (R44, R48). -/
def wordOf (lo hi : Byte) : Word := hi ++ lo

/-- The stored value of a two-byte field: the same 16 bits, read in two's complement (R99). -/
def fromWord (v : Word) : Word := v

/-! ### The decoder -/

/-- Why bytes decode to no instruction. -/
inductive DecodeError where
  /-- There is no byte at all: the end of the stream, between instructions (R191). -/
  | endOfBytes
  /-- The bytes end inside an instruction (R194); `consumed` of them precede the field that is not whole. -/
  | truncated (consumed : Nat)
  deriving DecidableEq, Repr

/-- A displacement or immediate field of `n` bytes, or nothing where it is not whole (R71, R44). -/
def takeField (n : ByteCount) (bytes : List Byte) : Option (Option Word × List Byte) :=
  match n, bytes with
  | .zero, rest => some (none, rest)
  | .one, b :: rest => some (some (fromByte b), rest)
  | .two, lo :: hi :: rest => some (some (fromWord (wordOf lo hi)), rest)
  | .one, [] => none
  | .two, [] => none
  | .two, [_] => none

/-- The r/m operand of an addressing mode; a mode without a displacement field ignores `disp`. -/
def rmFormOf (am : AddressingMode) (rm : Index) (disp : Word) : RmForm :=
  match am with
  | .registerDirect => .registerDirect rm
  | .memoryNoDisplacement => .memoryNoDisplacement rm
  | .memoryByteDisplacement => .memoryByteDisplacement rm disp
  | .memoryWordDisplacement => .memoryWordDisplacement rm disp
  | .directAddress => .directAddress disp

/-- The r/m operand that the mode byte and the bytes after it hold. -/
def takeRm (b1 : Byte) (bytes : List Byte) : Option (RmForm × List Byte) :=
  match takeField (modeOf (modeBits b1) (rmBits b1)).2 bytes with
  | none => none
  | some (disp, rest) =>
    some (rmFormOf (modeOf (modeBits b1) (rmBits b1)).1 (rmBits b1) (disp.getD 0#16), rest)

/-- Format `RM_REG` after the first byte (R67). -/
def decodeRmReg (b0 : Byte) (bytes : List Byte) : Except DecodeError (Instr × List Byte) :=
  match bytes with
  | [] => .error (.truncated 1)
  | b1 :: rest =>
    match takeRm b1 rest with
    | none => .error (.truncated 2)
    | some (rm, rest) =>
      .ok (rm.movRegister (dirBit b0) (widthBit .registerOrMemoryToRegister b0) (regBits b1), rest)

/-- Format `IMM_RM` after the first byte (R68). The reg sub-field is tested before any later byte (R76). -/
def decodeImmRm (b0 : Byte) (bytes : List Byte) : Except DecodeError (Instr × List Byte) :=
  let w := widthBit .immediateToRegisterOrMemory b0
  match bytes with
  | [] => .error (.truncated 1)
  | b1 :: rest =>
    if regBits b1 ≠ 0#3 then .ok (.invalid w b1, rest)
    else
      match takeRm b1 rest with
      | none => .error (.truncated 2)
      | some (rm, afterDisp) =>
        match takeField (nImm .immediateToRegisterOrMemory w) afterDisp with
        | none => .error (.truncated (2 + (modeOf (modeBits b1) (rmBits b1)).2.toNat))
        | some (imm, rest) => .ok (rm.movRmImm w (imm.getD 0#16), rest)

/-- Format `IMM_REG` after the first byte (R69). -/
def decodeImmReg (b0 : Byte) (bytes : List Byte) : Except DecodeError (Instr × List Byte) :=
  let w := widthBit .immediateToRegister b0
  match takeField (nImm .immediateToRegister w) bytes with
  | none => .error (.truncated 1)
  | some (imm, rest) => .ok (.movRegImm w (regOfOpcode b0) (imm.getD 0#16), rest)

/-- The instruction at the front of some bytes, with the bytes after it (R70, R74). It is total: an unrecognised first
byte and an invalid mode byte are rows of the table (18 and 16), and bytes that hold no whole instruction are
refused by name. -/
def decode (bytes : List Byte) : Except DecodeError (Instr × List Byte) :=
  match bytes with
  | [] => .error .endOfBytes
  | b0 :: rest =>
    match classify b0 with
    | .registerOrMemoryToRegister => decodeRmReg b0 rest
    | .immediateToRegisterOrMemory => decodeImmRm b0 rest
    | .immediateToRegister => decodeImmReg b0 rest
    | .unrecognized => .ok (.unrecognized b0, rest)

/-! ### The encoder -/

/-- The low-order byte of a word. -/
def lowByte (v : Word) : Byte := v.extractLsb' 0 8

/-- The high-order byte of a word. -/
def highByte (v : Word) : Byte := v.extractLsb' 8 8

/-- Two bytes, low-order byte first (R48). -/
def wordBytes (v : Word) : List Byte := [lowByte v, highByte v]

/-- First byte `100010dw` (R67). -/
def rmRegByte (d : Direction) (w : Bool) : Byte :=
  match d with
  | .sourceIsRegister => 0b1000100#7 ++ BitVec.ofBool w
  | .destinationIsRegister => 0b1000101#7 ++ BitVec.ofBool w

/-- First byte `1100011w` (R68). -/
def immRmByte (w : Bool) : Byte := 0b1100011#7 ++ BitVec.ofBool w

/-- First byte `1011wreg` (R69). -/
def immRegByte (w : Bool) (reg : Index) : Byte := 0b1011#4 ++ BitVec.ofBool w ++ reg

/-- The mode byte: mod, reg, rm from the top (R63). -/
def modeByteOf (mod : BitVec 2) (reg rm : Index) : Byte := mod ++ reg ++ rm

/-- The mode byte and the displacement bytes of an r/m operand (R64, R67, R68). -/
def encodeRm (reg : Index) : RmForm → List Byte
  | .directAddress disp => modeByteOf 0#2 reg 6#3 :: wordBytes disp
  | .memoryNoDisplacement rm => [modeByteOf 0#2 reg rm]
  | .memoryByteDisplacement rm disp => [modeByteOf 1#2 reg rm, lowByte disp]
  | .memoryWordDisplacement rm disp => modeByteOf 2#2 reg rm :: wordBytes disp
  | .registerDirect rm => [modeByteOf 3#2 reg rm]

/-- The immediate bytes: one when `w = 0`, two when `w = 1` (R65). -/
def encodeImm (w : Bool) (imm : Word) : List Byte := if w then wordBytes imm else [lowByte imm]

/-- Format `RM_REG` (R67). -/
def encodeRmReg (d : Direction) (w : Bool) (reg : Index) (rm : RmForm) : List Byte :=
  rmRegByte d w :: encodeRm reg rm

/-- Format `IMM_RM` (R68): the reg sub-field is 0. -/
def encodeImmRm (w : Bool) (rm : RmForm) (imm : Word) : List Byte :=
  immRmByte w :: (encodeRm 0#3 rm ++ encodeImm w imm)

/-- The bytes of an instruction. The two rejected rows give the bytes they consume (R144, R145). -/
def encode : Instr → List Byte
  | .movRmRegDirectAddress w reg disp => encodeRmReg .sourceIsRegister w reg (.directAddress disp)
  | .movRmRegMemoryNoDisplacement w reg rm => encodeRmReg .sourceIsRegister w reg (.memoryNoDisplacement rm)
  | .movRmRegMemoryByteDisplacement w reg rm disp => encodeRmReg .sourceIsRegister w reg (.memoryByteDisplacement rm disp)
  | .movRmRegMemoryWordDisplacement w reg rm disp => encodeRmReg .sourceIsRegister w reg (.memoryWordDisplacement rm disp)
  | .movRmRegRegisterDirect w reg rm => encodeRmReg .sourceIsRegister w reg (.registerDirect rm)
  | .movRegRmDirectAddress w reg disp => encodeRmReg .destinationIsRegister w reg (.directAddress disp)
  | .movRegRmMemoryNoDisplacement w reg rm => encodeRmReg .destinationIsRegister w reg (.memoryNoDisplacement rm)
  | .movRegRmMemoryByteDisplacement w reg rm disp => encodeRmReg .destinationIsRegister w reg (.memoryByteDisplacement rm disp)
  | .movRegRmMemoryWordDisplacement w reg rm disp => encodeRmReg .destinationIsRegister w reg (.memoryWordDisplacement rm disp)
  | .movRegRmRegisterDirect w reg rm => encodeRmReg .destinationIsRegister w reg (.registerDirect rm)
  | .movRmImmDirectAddress w disp imm => encodeImmRm w (.directAddress disp) imm
  | .movRmImmMemoryNoDisplacement w rm imm => encodeImmRm w (.memoryNoDisplacement rm) imm
  | .movRmImmMemoryByteDisplacement w rm disp imm => encodeImmRm w (.memoryByteDisplacement rm disp) imm
  | .movRmImmMemoryWordDisplacement w rm disp imm => encodeImmRm w (.memoryWordDisplacement rm disp) imm
  | .movRmImmRegisterDirect w rm imm => encodeImmRm w (.registerDirect rm) imm
  | .invalid w modeByte => [immRmByte w, modeByte]
  | .movRegImm w reg imm => immRegByte w reg :: encodeImm w imm
  | .unrecognized b => [b]

/-! ### Instruction lengths, as the table of R66 gives them -/

/-- The bytes of the mode byte and of the displacement. -/
def RmForm.length : RmForm → Nat
  | .directAddress _ => 3
  | .memoryNoDisplacement _ => 1
  | .memoryByteDisplacement _ _ => 2
  | .memoryWordDisplacement _ _ => 3
  | .registerDirect _ => 1

/-- The bytes of the immediate (R65). -/
def immLength (w : Bool) : Nat := if w then 2 else 1

/-- The bytes an instruction consumes (R66, R144, R145). -/
def Instr.length : Instr → Nat
  | .movRmRegDirectAddress _ _ _ => 4
  | .movRmRegMemoryNoDisplacement _ _ _ => 2
  | .movRmRegMemoryByteDisplacement _ _ _ _ => 3
  | .movRmRegMemoryWordDisplacement _ _ _ _ => 4
  | .movRmRegRegisterDirect _ _ _ => 2
  | .movRegRmDirectAddress _ _ _ => 4
  | .movRegRmMemoryNoDisplacement _ _ _ => 2
  | .movRegRmMemoryByteDisplacement _ _ _ _ => 3
  | .movRegRmMemoryWordDisplacement _ _ _ _ => 4
  | .movRegRmRegisterDirect _ _ _ => 2
  | .movRmImmDirectAddress w _ _ => 4 + immLength w
  | .movRmImmMemoryNoDisplacement w _ _ => 2 + immLength w
  | .movRmImmMemoryByteDisplacement w _ _ _ => 3 + immLength w
  | .movRmImmMemoryWordDisplacement w _ _ _ => 4 + immLength w
  | .movRmImmRegisterDirect w _ _ => 2 + immLength w
  | .invalid _ _ => 2
  | .movRegImm w _ _ => 1 + immLength w
  | .unrecognized _ => 1

/-! ### The opcode table's numbering -/

/-- The six bytes of an instruction whose bits are `w`, numbered as spec/opcode_table.json numbers them: the first
16 bits are the table's word `K = (byte0 << 8) | byte1`, byte 0 in the HIGH half (R74); later 16-bit words count on from
it in the same way; with fewer than 16 bits the number is byte 0. Bytes above `nbits` are 0 (log 8). -/
def tableBytes (nbits w : Nat) : List Byte :=
  let byteAt (n : Nat) : Byte := BitVec.ofNat 8 (w % 2 ^ nbits / 2 ^ n)
  let high (n : Nat) : Byte := if nbits < n + 16 then byteAt n else byteAt (n + 8)
  let low (n : Nat) : Byte := if nbits < n + 16 then 0 else byteAt n
  [high 0, low 0, high 16, low 16, high 32, low 32]

/-- The instruction the decoder reads from the bits `w` of the opcode table's numbering. -/
def decodeTableWord (nbits w : Nat) : Option Instr :=
  match decode (tableBytes nbits w) with
  | .ok (i, _) => some i
  | .error _ => none

end Sys2Proof
end

