-- ==== Sys2Proof/Machine/State.lean ====
section
/-! DEFINITION. The state of one decoder instance (R10), the values on its ports (R33, R34), the reasons a step can stop,
and the state after reset (R32). -/

namespace Sys2Proof.Machine

/-! ### The result interface (R33) -/

/-- The width of a register or an immediate, 8 or 16 bits. -/
inductive Width where
  | byte
  | word
  deriving DecidableEq, Repr

/-- A structured operand (R33). `mem` holds the index of the base expression and the displacement if there is one;
`direct` holds the address, read unsigned; `imm` says whether a size keyword is needed (R169). -/
inductive Operand where
  | reg (width : Width) (index : Index)
  | mem (rm : Index) (disp : Option Word)
  | direct (addr : Word)
  | imm (width : Width) (value : Word) (sized : Bool)
  deriving DecidableEq, Repr

/-- The mnemonic of every record is `mov` (R79, D26). -/
inductive Mnemonic where
  | mov
  deriving DecidableEq, Repr

/-- The record of one decoded instruction (R33, R120). -/
structure DecodedInstruction where
  mnemonic : Mnemonic
  destinationOperand : Operand
  sourceOperand : Operand
  start : Nat
  length : Nat
  deriving DecidableEq, Repr

/-- The final outcome of a run with what it records (R190 to R194). -/
inductive FinalOutcome where
  | endOfStream
  | truncatedInstruction (offset instrStart : Nat)
  | unrecognizedOpcode (byte : Byte) (offset : Nat)
  | invalidFieldCombination (byte : Byte) (offset instrStart : Nat)
  deriving DecidableEq, Repr

/-- The three fatal outcomes; `EndOfStream` is not an error (R190). -/
def FinalOutcome.isFatal : FinalOutcome → Bool
  | .endOfStream => false
  | .truncatedInstruction _ _ => true
  | .unrecognizedOpcode _ _ => true
  | .invalidFieldCombination _ _ _ => true

/-- One item on the port `result` (R33, R34). -/
inductive ResultItem where
  | instruction (record : DecodedInstruction)
  | outcome (final : FinalOutcome)
  deriving DecidableEq, Repr

/-! ### The cursor ports (R34) -/

/-- A request on the port `cur_req`. -/
inductive CursorRequest where
  | readByte
  | readWord
  deriving DecidableEq, Repr

/-- An answer on the port `cur_rsp`. -/
inductive CursorResponse where
  | byte (v : Byte)
  | word (v : Word)
  | exhausted
  deriving DecidableEq, Repr

/-- The one request of a step with its answer. -/
structure CursorExchange where
  request : CursorRequest
  response : CursorResponse
  deriving DecidableEq, Repr

/-! ### The state -/

/-- The state of the decoder state machine (R14). -/
inductive Phase where
  | awaitingOpcodeByte
  | awaitingModeByte
  | awaitingDisplacementOrImmediate
  | complete
  | done
  | faulted
  deriving DecidableEq, Repr

/-- The terminal phases (R121). -/
def Phase.isTerminal : Phase → Bool
  | .awaitingOpcodeByte => false
  | .awaitingModeByte => false
  | .awaitingDisplacementOrImmediate => false
  | .complete => false
  | .done => true
  | .faulted => true

/-- `pendingBytes`: how many bytes of which kind are still to come (R23). The mode counter is 0 or 1. -/
structure PendingBytes where
  mode : Bool
  disp : ByteCount
  imm : ByteCount
  deriving DecidableEq, Repr

/-- Nothing pending, `(0, 0, 0)`. -/
def PendingBytes.nothing : PendingBytes := { mode := false, disp := .zero, imm := .zero }

/-- The per-instruction accumulator with `instrStart`. A field whose valid flag is clear is `none`: it has no content
(R27, R31, U4; log 3). -/
structure DecodeState where
  opcodeFamily : Option Family
  direction : Option Direction
  wide : Option Bool
  addressingMode : Option AddressingMode
  regField : Option Index
  rmField : Option Index
  displacement : Option Word
  immediate : Option Word
  pendingBytes : PendingBytes
  instrStart : Option Nat
  deriving DecidableEq, Repr

/-- The neutral value of the accumulator: every valid flag clear, nothing pending (R31). -/
def DecodeState.neutral : DecodeState :=
  { opcodeFamily := none
    direction := none
    wide := none
    addressingMode := none
    regField := none
    rmField := none
    displacement := none
    immediate := none
    pendingBytes := PendingBytes.nothing
    instrStart := none }

/-- One decoder instance with the buffer it reads and what stands on its ports.
`mem` and `len` are the buffer `BUF` and `LEN` (R5, R11; log 1): the cells of the offsets that hold another byte than
`Config.unlistedByte`, sorted by offset. `results` is what the port `result` has carried in the current run (log 6), `cur` the
cursor exchange of the last step (log 7), `rst` the reset request (log 5). -/
structure State where
  mem : List Host.Cell
  len : Nat
  pos : Nat
  phase : Phase
  acc : DecodeState
  err : Option FinalOutcome
  results : List ResultItem
  rst : Bool
  cur : Option CursorExchange
  deriving DecidableEq, Repr

/-! ### Why a step stops -/

/-- The fields that carry a valid flag (R27). -/
inductive AccField where
  | opcodeFamily
  | direction
  | wide
  | addressingMode
  | regField
  | rmField
  | displacement
  | immediate
  | instrStart
  deriving DecidableEq, Repr

/-- The faults of the model. None is an outcome of the hardware: those are next states (R190, R196). No state that a run
reaches gives one. -/
inductive Fault where
  /-- A transition read a field whose valid flag is clear, which R27 asks a model to make a fault. Raised by
  `needField`. Safe: no rule reads such a field. -/
  | unsetField (field : AccField)
  /-- Phase `AwaitingDisplacementOrImmediate` with no displacement and no immediate byte pending, which R116 excludes.
  Raised by `fieldAction`. Safe (log 9). -/
  | nothingPending
  /-- The family `Unrecognized` in a phase other than `Faulted`, which R15 excludes. Raised by `modeAction` and
  `DecodeState.gathered`. Safe (log 9). -/
  | unrecognizedInProgress
  deriving DecidableEq, Repr

/-- The refusals of the model. None is given: every row of the table has its meaning. -/
inductive Refusal where
  /-- An instruction without a meaning yet, rejected by its mnemonic in `exec`. Raised by no arm. Safe. -/
  | notModelled (mnemonic : String)
  deriving DecidableEq, Repr

/-! ### Reset -/

/-- The state after reset (R32), with the empty buffer of a host that has loaded nothing (log 1), no reset request
(log 5) and idle cursor ports (log 7). -/
def State.reset : State :=
  { mem := []
    len := 0
    pos := Config.entryPoint
    phase := .awaitingOpcodeByte
    acc := DecodeState.neutral
    err := none
    results := []
    rst := false
    cur := none }

end Sys2Proof.Machine
end

