-- ==== Sys2Proof/Machine/Flags.lean ====
section
/-! DEFINITION. The valid flags of the accumulator (R27) and the read of a flagged field. They are the only flags there are: the
block has no condition codes (R29) and no rule computes one (R146). -/

namespace Sys2Proof.Machine

/-- The valid flag of a field (R27). -/
def validFlag (a : DecodeState) (f : AccField) : Bool :=
  match f with
  | .opcodeFamily => a.opcodeFamily.isSome
  | .direction => a.direction.isSome
  | .wide => a.wide.isSome
  | .addressingMode => a.addressingMode.isSome
  | .regField => a.regField.isSome
  | .rmField => a.rmField.isSome
  | .displacement => a.displacement.isSome
  | .immediate => a.immediate.isSome
  | .instrStart => a.instrStart.isSome

/-- The read `S.f` of a flagged field: a fault where the flag is clear (R7, R27). -/
def needField {α : Type} (f : AccField) (content : Option α) : Except Fault α :=
  match content with
  | some v => .ok v
  | none => .error (.unsetField f)

end Sys2Proof.Machine
end

