-- ==== Sys2Proof/Machine/Ops.lean ====
section
/-! DEFINITION. The named operations on a state: the buffer and the Byte Cursor (spec/20_memory.md), the result port, taking a
final outcome (the block's only exception entry, R196), completion (R120) and the external reset (R220). There is no return
from a final outcome (R199): the way out of a terminal phase is `externalReset`. -/

namespace Sys2Proof.Machine

/-! ### The buffer as a sorted list of cells -/

/-- The byte at an offset; an unlisted offset holds `Config.unlistedByte`. -/
def Memory.read (m : List Host.Cell) (a : Nat) : Byte :=
  match m with
  | [] => Config.unlistedByte
  | c :: rest => if c.1 = a then c.2 else Memory.read rest a

/-- The canonical form: offsets strictly rising, each at least `low`, no cell with the unlisted byte. -/
def Memory.wfFrom (low : Nat) (m : List Host.Cell) : Bool :=
  match m with
  | [] => true
  | c :: rest => decide (low ≤ c.1) && decide (c.2 ≠ Config.unlistedByte) && Memory.wfFrom (c.1 + 1) rest

/-- The canonical form of the whole buffer. -/
def Memory.wf (m : List Host.Cell) : Bool := Memory.wfFrom 0 m

/-- A cell in front of a list, left out where it holds the unlisted byte. -/
def Memory.consCell (a : Nat) (v : Byte) (m : List Host.Cell) : List Host.Cell :=
  if v = Config.unlistedByte then m else (a, v) :: m

/-- One byte put at an offset, in canonical form. Only the host's load uses it: the block never writes (R41). -/
def Memory.write (m : List Host.Cell) (a : Nat) (v : Byte) : List Host.Cell :=
  match m with
  | [] => Memory.consCell a v []
  | c :: rest =>
    if a < c.1 then Memory.consCell a v (c :: rest)
    else if a = c.1 then Memory.consCell a v rest
    else c :: Memory.write rest a v

/-- Consecutive bytes put from an offset on. -/
def Memory.writeBytes (m : List Host.Cell) (a : Nat) (bytes : List Byte) : List Host.Cell :=
  match bytes with
  | [] => m
  | b :: rest => Memory.writeBytes (Memory.write m a b) (a + 1) rest

/-- `n` bytes from an offset on. -/
def Memory.readBytes (m : List Host.Cell) (a n : Nat) : List Byte :=
  match n with
  | 0 => []
  | k + 1 => Memory.read m a :: Memory.readBytes m (a + 1) k

/-- The bytes `BUF[a], BUF[a + 1], ...` up to the end of the buffer. -/
def State.bytesFrom (s : State) (a : Nat) : List Byte := Memory.readBytes s.mem a (s.len - a)

/-- The byte at an offset of the buffer, or nothing: at or beyond `LEN` no byte exists (R51). -/
def State.byteAt (s : State) (a : Nat) : Option Byte :=
  if a < s.len then some (Memory.read s.mem a) else none

/-! ### The Byte Cursor -/

/-- What stands on the cursor ports after a step (R34). -/
def setCursor (request : CursorRequest) (response : CursorResponse) (s : State) : State :=
  { s with cur := some { request := request, response := response } }

/-- A step that makes no cursor request. -/
def idleCursor (s : State) : State := { s with cur := none }

/-- The delivery of one byte: the position moves past it (R43). -/
def consumeByte (b : Byte) (s : State) : State :=
  setCursor .readByte (.byte b) { s with pos := s.pos + 1 }

/-- The delivery of one word: the position moves past both bytes (R44). -/
def consumeWord (v : Word) (s : State) : State :=
  setCursor .readWord (.word v) { s with pos := s.pos + 2 }

/-- `readByte` (R43): `none` stands for `Exhausted`, and then the position is unchanged. -/
def readByte (s : State) : Option Byte × State :=
  if s.pos < s.len then
    (some (Memory.read s.mem s.pos), consumeByte (Memory.read s.mem s.pos) s)
  else (none, setCursor .readByte .exhausted s)

/-- The little-endian word at the position (R44, R48). -/
def wordAtPos (s : State) : Word := wordOf (Memory.read s.mem s.pos) (Memory.read s.mem (s.pos + 1))

/-- `readWord` (R44): all or nothing. -/
def readWord (s : State) : Option Word × State :=
  if 2 ≤ s.len - s.pos then (some (wordAtPos s), consumeWord (wordAtPos s) s)
  else (none, setCursor .readWord .exhausted s)

/-- `isExhausted` (R45). -/
def isExhausted (s : State) : Bool := decide (s.pos = s.len)

/-- The signed value of a field of one byte (`two = false`) or two bytes (R117, R118, R98, R99). -/
def readSigned (two : Bool) (s : State) : Option Word × State :=
  if two then ((readWord s).1.map fromWord, (readWord s).2)
  else ((readByte s).1.map fromByte, (readByte s).2)

/-! ### The result port and the final outcomes -/

/-- `emit`: one item on the result port (R33). -/
def emit (item : ResultItem) (s : State) : State := { s with results := s.results ++ [item] }

/-- `raise E(info)` (R196): the outcome is recorded, the phase is `Faulted`, the error goes to the result port. The
accumulator and the position stay. -/
def raise (final : FinalOutcome) (s : State) : State :=
  emit (.outcome final) { s with err := some final, phase := .faulted }

/-- The end of the stream (R111): not an error. -/
def endStream (s : State) : State :=
  emit (.outcome .endOfStream) { s with err := some .endOfStream, phase := .done }

/-- Truncation (R119), after the failed read: the offset is the position, which the read left alone. -/
def truncate (s : State) : Except Fault State :=
  match needField .instrStart s.acc.instrStart with
  | .error f => .error f
  | .ok start => .ok (raise (.truncatedInstruction s.pos start) s)

/-! ### Completion and reset -/

/-- Completion (R120): the record leaves, the accumulator becomes neutral, and the next instruction is awaited. It
makes no cursor request. Two operands as `operands` gives them, destination first. -/
def complete (operands : Operand × Operand) (s : State) : Host.Outcome State Fault Refusal :=
  match needField .instrStart s.acc.instrStart with
  | .error f => .fault f
  | .ok start =>
    .next (idleCursor (emit
      (.instruction { mnemonic := .mov
                      destinationOperand := operands.1
                      sourceOperand := operands.2
                      start := start
                      length := s.pos - start })
      { s with acc := DecodeState.neutral, phase := .awaitingOpcodeByte }))

/-- The external reset (R220, R32): a new run over the same buffer (R221). The request is taken with it (log 5). -/
def externalReset (s : State) : State := { State.reset with mem := s.mem, len := s.len }

/-! ### Placing an instruction where it is fetched -/

/-- The state with bytes stored at the position, in a run that is between instructions and has no reset request. -/
def placeInstruction (bytes : List Byte) (s : State) : State :=
  { s with
    mem := Memory.writeBytes s.mem s.pos bytes
    len := max s.len (s.pos + bytes.length)
    phase := .awaitingOpcodeByte
    acc := DecodeState.neutral
    err := none
    rst := false }

end Sys2Proof.Machine
end

