-- ==== Sys2Proof/Machine/Operands.lean ====
section
/-! DEFINITION. The addressing and register resolver (spec/43_addressing_resolution.md): the three tables, the operand forms
and the operand assignment, and the reading of a completed accumulator. -/

namespace Sys2Proof.Machine

/-! ### The operand forms -/

/-- `W`: 16 bits when `wide = 1`, else 8 (R163, R164). -/
def widthOf (wide : Bool) : Width := if wide then .word else .byte

/-- The register operand (R164). -/
def regOperand (wide : Bool) (reg : Index) : Operand := .reg (widthOf wide) reg

/-- The other operand, by addressing mode (R165, R167, R168). The direct address is the stored pattern read
unsigned; the base table is not consulted for it. -/
def otherOperand (wide : Bool) (rm : RmForm) : Operand :=
  match rm with
  | .directAddress disp => .direct disp
  | .memoryNoDisplacement rm => .mem rm none
  | .memoryByteDisplacement rm disp => .mem rm (some disp)
  | .memoryWordDisplacement rm disp => .mem rm (some disp)
  | .registerDirect rm => .reg (widthOf wide) rm

/-- Whether an operand is `Mem` or `Direct` (R169). -/
def Operand.isMemory : Operand → Bool
  | .reg _ _ => false
  | .mem _ _ => true
  | .direct _ => true
  | .imm _ _ _ => false

/-- The immediate operand; `sized` when the destination is memory (R169). -/
def immOperand (wide : Bool) (imm : Word) (sized : Bool) : Operand := .imm (widthOf wide) imm sized

/-! ### Operand assignment (R170): destination, source -/

/-- The family `RegisterOrMemoryToRegister`. -/
def registerMoveOperands (d : Direction) (wide : Bool) (reg : Index) (rm : RmForm) : Operand × Operand :=
  match d with
  | .destinationIsRegister => (regOperand wide reg, otherOperand wide rm)
  | .sourceIsRegister => (otherOperand wide rm, regOperand wide reg)

/-- The family `ImmediateToRegisterOrMemory`. -/
def immediateToRmOperands (wide : Bool) (rm : RmForm) (imm : Word) : Operand × Operand :=
  (otherOperand wide rm, immOperand wide imm (otherOperand wide rm).isMemory)

/-- The family `ImmediateToRegister`. -/
def immediateToRegOperands (wide : Bool) (reg : Index) (imm : Word) : Operand × Operand :=
  (regOperand wide reg, immOperand wide imm false)

/-! ### Reading a completed accumulator -/

/-- The r/m operand of an accumulator, by the stored addressing mode (R165 to R168, R171): each mode reads only the fields
its rule reads. -/
def DecodeState.rmForm (a : DecodeState) : Except Fault RmForm := do
  match ← needField .addressingMode a.addressingMode with
  | .registerDirect =>
    let rm ← needField .rmField a.rmField
    pure (.registerDirect rm)
  | .memoryNoDisplacement =>
    let rm ← needField .rmField a.rmField
    pure (.memoryNoDisplacement rm)
  | .memoryByteDisplacement =>
    let rm ← needField .rmField a.rmField
    let disp ← needField .displacement a.displacement
    pure (.memoryByteDisplacement rm disp)
  | .memoryWordDisplacement =>
    let rm ← needField .rmField a.rmField
    let disp ← needField .displacement a.displacement
    pure (.memoryWordDisplacement rm disp)
  | .directAddress =>
    let disp ← needField .displacement a.displacement
    pure (.directAddress disp)

/-- The instruction that a completed accumulator holds: the fields `operands(S)` reads for its family (R170, R26). -/
def DecodeState.gathered (a : DecodeState) : Except Fault Instr := do
  match ← needField .opcodeFamily a.opcodeFamily with
  | .registerOrMemoryToRegister =>
    let d ← needField .direction a.direction
    let w ← needField .wide a.wide
    let reg ← needField .regField a.regField
    let rm ← a.rmForm
    pure (rm.movRegister d w reg)
  | .immediateToRegisterOrMemory =>
    let w ← needField .wide a.wide
    let rm ← a.rmForm
    let imm ← needField .immediate a.immediate
    pure (rm.movRmImm w imm)
  | .immediateToRegister =>
    let w ← needField .wide a.wide
    let reg ← needField .regField a.regField
    let imm ← needField .immediate a.immediate
    pure (.movRegImm w reg imm)
  | .unrecognized => throw .unrecognizedInProgress

end Sys2Proof.Machine
end

