-- ==== Sys2Proof/Machine/MovRegImm.lean ====
section
/-! DEFINITION. `mov reg, imm` (R143, row 17). As in Machine/MovRmReg.lean, the meaning is the completion of the gathered
instruction (R120). -/

namespace Sys2Proof.Machine

/-- Row 17. -/
def execMovRegImm (w : Bool) (reg : Index) (imm : Word) (s : State) : Host.Outcome State Fault Refusal :=
  complete (immediateToRegOperands w reg imm) s

end Sys2Proof.Machine
end

