-- ==== Sys2Proof/Machine/MovRegRm.lean ====
section
/-! DEFINITION. `mov reg, r/m` (R141, rows 6 to 10): direction `DestinationIsRegister`. As in Machine/MovRmReg.lean, a meaning is
the completion of the gathered instruction (R120). -/

namespace Sys2Proof.Machine

/-- Row 6. -/
def execMovRegRmDirectAddress (w : Bool) (reg : Index) (disp : Word) (s : State) : Host.Outcome State Fault Refusal :=
  complete (registerMoveOperands .destinationIsRegister w reg (.directAddress disp)) s

/-- Row 7. -/
def execMovRegRmMemoryNoDisplacement (w : Bool) (reg rm : Index) (s : State) : Host.Outcome State Fault Refusal :=
  complete (registerMoveOperands .destinationIsRegister w reg (.memoryNoDisplacement rm)) s

/-- Row 8. -/
def execMovRegRmMemoryByteDisplacement (w : Bool) (reg rm : Index) (disp : Word) (s : State) :
    Host.Outcome State Fault Refusal :=
  complete (registerMoveOperands .destinationIsRegister w reg (.memoryByteDisplacement rm disp)) s

/-- Row 9. -/
def execMovRegRmMemoryWordDisplacement (w : Bool) (reg rm : Index) (disp : Word) (s : State) :
    Host.Outcome State Fault Refusal :=
  complete (registerMoveOperands .destinationIsRegister w reg (.memoryWordDisplacement rm disp)) s

/-- Row 10. -/
def execMovRegRmRegisterDirect (w : Bool) (reg rm : Index) (s : State) : Host.Outcome State Fault Refusal :=
  complete (registerMoveOperands .destinationIsRegister w reg (.registerDirect rm)) s

end Sys2Proof.Machine
end

