-- ==== Sys2Proof/Machine/MovRmImm.lean ====
section
/-! DEFINITION. `mov r/m, imm` (R142, rows 11 to 15). As in Machine/MovRmReg.lean, a meaning is the completion of the gathered
instruction (R120). -/

namespace Sys2Proof.Machine

/-- Row 11. -/
def execMovRmImmDirectAddress (w : Bool) (disp imm : Word) (s : State) : Host.Outcome State Fault Refusal :=
  complete (immediateToRmOperands w (.directAddress disp) imm) s

/-- Row 12. -/
def execMovRmImmMemoryNoDisplacement (w : Bool) (rm : Index) (imm : Word) (s : State) :
    Host.Outcome State Fault Refusal :=
  complete (immediateToRmOperands w (.memoryNoDisplacement rm) imm) s

/-- Row 13. -/
def execMovRmImmMemoryByteDisplacement (w : Bool) (rm : Index) (disp imm : Word) (s : State) :
    Host.Outcome State Fault Refusal :=
  complete (immediateToRmOperands w (.memoryByteDisplacement rm disp) imm) s

/-- Row 14. -/
def execMovRmImmMemoryWordDisplacement (w : Bool) (rm : Index) (disp imm : Word) (s : State) :
    Host.Outcome State Fault Refusal :=
  complete (immediateToRmOperands w (.memoryWordDisplacement rm disp) imm) s

/-- Row 15. -/
def execMovRmImmRegisterDirect (w : Bool) (rm : Index) (imm : Word) (s : State) : Host.Outcome State Fault Refusal :=
  complete (immediateToRmOperands w (.registerDirect rm) imm) s

end Sys2Proof.Machine
end

