-- ==== Sys2Proof/Machine/MovRmReg.lean ====
section
/-! DEFINITION. `mov r/m, reg` (R140, rows 1 to 5): direction `SourceIsRegister`. A meaning is what the block does once the
instruction's bytes are gathered: it emits the record (R120) and performs no move (R146). -/

namespace Sys2Proof.Machine

/-- Row 1. -/
def execMovRmRegDirectAddress (w : Bool) (reg : Index) (disp : Word) (s : State) : Host.Outcome State Fault Refusal :=
  complete (registerMoveOperands .sourceIsRegister w reg (.directAddress disp)) s

/-- Row 2. -/
def execMovRmRegMemoryNoDisplacement (w : Bool) (reg rm : Index) (s : State) : Host.Outcome State Fault Refusal :=
  complete (registerMoveOperands .sourceIsRegister w reg (.memoryNoDisplacement rm)) s

/-- Row 3. -/
def execMovRmRegMemoryByteDisplacement (w : Bool) (reg rm : Index) (disp : Word) (s : State) :
    Host.Outcome State Fault Refusal :=
  complete (registerMoveOperands .sourceIsRegister w reg (.memoryByteDisplacement rm disp)) s

/-- Row 4. -/
def execMovRmRegMemoryWordDisplacement (w : Bool) (reg rm : Index) (disp : Word) (s : State) :
    Host.Outcome State Fault Refusal :=
  complete (registerMoveOperands .sourceIsRegister w reg (.memoryWordDisplacement rm disp)) s

/-- Row 5. -/
def execMovRmRegRegisterDirect (w : Bool) (reg rm : Index) (s : State) : Host.Outcome State Fault Refusal :=
  complete (registerMoveOperands .sourceIsRegister w reg (.registerDirect rm)) s

end Sys2Proof.Machine
end

