-- ==== Sys2Proof/Machine/Rejected.lean ====
section
/-! DEFINITION. The two rejected rows: `INVALID` (R145, row 16) and `UNRECOGNIZED` (R144, row 18). Their effect is the fatal outcome
they raise, with the entry of R196. Each consumes the byte that rejects it. -/

namespace Sys2Proof.Machine

/-- Row 16 (R115, R145): at the mode byte, before any field is written. -/
def execInvalid (_w : Bool) (modeByte : Byte) (s : State) : Host.Outcome State Fault Refusal :=
  match needField .instrStart s.acc.instrStart with
  | .error f => .fault f
  | .ok start => .next (raise (.invalidFieldCombination modeByte s.pos start) (consumeByte modeByte s))

/-- Row 18 (R113, R144): at the first byte. -/
def execUnrecognized (firstByte : Byte) (s : State) : Host.Outcome State Fault Refusal :=
  .next (raise (.unrecognizedOpcode firstByte s.pos)
    { consumeByte firstByte s with acc := { s.acc with opcodeFamily := some .unrecognized } })

end Sys2Proof.Machine
end

