-- ==== Sys2Proof/Machine/Dispatch.lean ====
section
/-! DEFINITION. The meaning of each instruction, one arm per constructor. -/

namespace Sys2Proof.Machine

def exec (i : Instr) (s : State) : Host.Outcome State Fault Refusal :=
  match i with
  | .movRmRegDirectAddress w reg disp => Sys2Proof.Machine.execMovRmRegDirectAddress w reg disp s
  | .movRmRegMemoryNoDisplacement w reg rm => Sys2Proof.Machine.execMovRmRegMemoryNoDisplacement w reg rm s
  | .movRmRegMemoryByteDisplacement w reg rm disp => Sys2Proof.Machine.execMovRmRegMemoryByteDisplacement w reg rm disp s
  | .movRmRegMemoryWordDisplacement w reg rm disp => Sys2Proof.Machine.execMovRmRegMemoryWordDisplacement w reg rm disp s
  | .movRmRegRegisterDirect w reg rm => Sys2Proof.Machine.execMovRmRegRegisterDirect w reg rm s
  | .movRegRmDirectAddress w reg disp => Sys2Proof.Machine.execMovRegRmDirectAddress w reg disp s
  | .movRegRmMemoryNoDisplacement w reg rm => Sys2Proof.Machine.execMovRegRmMemoryNoDisplacement w reg rm s
  | .movRegRmMemoryByteDisplacement w reg rm disp => Sys2Proof.Machine.execMovRegRmMemoryByteDisplacement w reg rm disp s
  | .movRegRmMemoryWordDisplacement w reg rm disp => Sys2Proof.Machine.execMovRegRmMemoryWordDisplacement w reg rm disp s
  | .movRegRmRegisterDirect w reg rm => Sys2Proof.Machine.execMovRegRmRegisterDirect w reg rm s
  | .movRmImmDirectAddress w disp imm => Sys2Proof.Machine.execMovRmImmDirectAddress w disp imm s
  | .movRmImmMemoryNoDisplacement w rm imm => Sys2Proof.Machine.execMovRmImmMemoryNoDisplacement w rm imm s
  | .movRmImmMemoryByteDisplacement w rm disp imm => Sys2Proof.Machine.execMovRmImmMemoryByteDisplacement w rm disp imm s
  | .movRmImmMemoryWordDisplacement w rm disp imm => Sys2Proof.Machine.execMovRmImmMemoryWordDisplacement w rm disp imm s
  | .movRmImmRegisterDirect w rm imm => Sys2Proof.Machine.execMovRmImmRegisterDirect w rm imm s
  | .invalid w modeByte => Sys2Proof.Machine.execInvalid w modeByte s
  | .movRegImm w reg imm => Sys2Proof.Machine.execMovRegImm w reg imm s
  | .unrecognized firstByte => Sys2Proof.Machine.execUnrecognized firstByte s

end Sys2Proof.Machine
end

