-- ==== Sys2Proof/Machine/Transitions.lean ====
section
/-! DEFINITION. The decoder state machine (spec/41_state_machine.md): which transition of R110's table a state takes. The
gathering transitions give the next state themselves; where an instruction is decided (all its bytes gathered, or a byte
that rejects it), the transition names the instruction to run, whose meaning `exec` gives. -/

namespace Sys2Proof.Machine

/-- What a state does next: a transition to another state, or the instruction it now runs. -/
inductive Action where
  | goto (s : State)
  | run (i : Instr)
  deriving DecidableEq, Repr

/-! ### The opcode byte -/

/-- What the first byte establishes (R112), after the read; `start` is the position before it. The byte is of one of the
three families: R112 gives nothing for `unrecognized`, no transition asks for it, and the state as it was is the model's (log 15).
DESIGN CHOICE. -/
def opcodeByte (f : Family) (b0 : Byte) (start : Nat) (s : State) : State :=
  match f with
  | .registerOrMemoryToRegister =>
    { s with
      phase := .awaitingModeByte
      acc := { s.acc with
        instrStart := some start
        opcodeFamily := some .registerOrMemoryToRegister
        direction := some (dirBit b0)
        wide := some (widthBit .registerOrMemoryToRegister b0)
        pendingBytes := { mode := true, disp := .zero, imm := .zero } } }
  | .immediateToRegisterOrMemory =>
    { s with
      phase := .awaitingModeByte
      acc := { s.acc with
        instrStart := some start
        opcodeFamily := some .immediateToRegisterOrMemory
        wide := some (widthBit .immediateToRegisterOrMemory b0)
        pendingBytes := { mode := true, disp := .zero, imm := .zero } } }
  | .immediateToRegister =>
    { s with
      phase := .awaitingDisplacementOrImmediate
      acc := { s.acc with
        instrStart := some start
        opcodeFamily := some .immediateToRegister
        wide := some (widthBit .immediateToRegister b0)
        regField := some (regOfOpcode b0)
        pendingBytes := { mode := false, disp := .zero, imm := nImm .immediateToRegister (widthBit .immediateToRegister b0) } } }
  | .unrecognized => s

/-- Phase `AwaitingOpcodeByte`: the end of the stream (R111), an unrecognised first byte (R113) or the opcode byte (R112), tested in
that order (R198). -/
def opcodeAction (s : State) : Action :=
  match readByte s with
  | (none, after) => .goto (endStream after)
  | (some b0, after) =>
    match classify b0 with
    | .unrecognized => .run (.unrecognized b0)
    | .registerOrMemoryToRegister => .goto (opcodeByte .registerOrMemoryToRegister b0 s.pos after)
    | .immediateToRegisterOrMemory => .goto (opcodeByte .immediateToRegisterOrMemory b0 s.pos after)
    | .immediateToRegister => .goto (opcodeByte .immediateToRegister b0 s.pos after)

/-! ### The mode byte -/

/-- Whether any displacement or immediate byte is pending (R114, R117). -/
def gatheringPhase (disp imm : ByteCount) : Phase :=
  if disp = .zero ∧ imm = .zero then .complete else .awaitingDisplacementOrImmediate

/-- What the mode byte establishes (R114), after the read. -/
def modeByte (f : Family) (wide : Bool) (b1 : Byte) (s : State) : State :=
  { s with
    phase := gatheringPhase (modeOf (modeBits b1) (rmBits b1)).2 (nImm f wide)
    acc := { s.acc with
      regField := some (regBits b1)
      rmField := some (rmBits b1)
      addressingMode := some (modeOf (modeBits b1) (rmBits b1)).1
      pendingBytes := { mode := false, disp := (modeOf (modeBits b1) (rmBits b1)).2, imm := nImm f wide } } }

/-- Phase `AwaitingModeByte`: truncation (R119), an invalid combination (R115) or the mode byte (R114), tested in that order (R198). -/
def modeAction (s : State) : Except Fault Action :=
  match readByte s with
  | (none, after) => do
    let t ← truncate after
    pure (.goto t)
  | (some b1, after) => do
    let f ← needField .opcodeFamily s.acc.opcodeFamily
    let w ← needField .wide s.acc.wide
    match f with
    | .registerOrMemoryToRegister => pure (.goto (modeByte f w b1 after))
    | .immediateToRegisterOrMemory =>
      if regBits b1 ≠ 0#3 then pure (.run (.invalid w b1)) else pure (.goto (modeByte f w b1 after))
    | .immediateToRegister => pure (.goto (modeByte f w b1 after))
    | .unrecognized => throw .unrecognizedInProgress

/-! ### Displacement and immediate -/

/-- The displacement is stored (R117), after the read. -/
def storeDisplacement (v : Word) (s : State) : State :=
  { s with
    phase := gatheringPhase .zero s.acc.pendingBytes.imm
    acc := { s.acc with
      displacement := some v
      pendingBytes := { s.acc.pendingBytes with disp := .zero } } }

/-- The immediate is stored (R118), after the read. -/
def storeImmediate (v : Word) (s : State) : State :=
  { s with
    phase := .complete
    acc := { s.acc with
      immediate := some v
      pendingBytes := { s.acc.pendingBytes with imm := .zero } } }

/-- A read that either stores its value or truncates the instruction (R119). -/
def gatherField (two : Bool) (store : Word → State → State) (s : State) : Except Fault Action :=
  match readSigned two s with
  | (none, after) => do
    let t ← truncate after
    pure (.goto t)
  | (some v, after) => pure (.goto (store v after))

/-- Phase `AwaitingDisplacementOrImmediate`: the displacement first (R117), then the immediate (R118). -/
def fieldAction (s : State) : Except Fault Action :=
  match s.acc.pendingBytes.disp, s.acc.pendingBytes.imm with
  | .one, _ => gatherField false storeDisplacement s
  | .two, _ => gatherField true storeDisplacement s
  | .zero, .one => gatherField false storeImmediate s
  | .zero, .two => gatherField true storeImmediate s
  | .zero, .zero => throw .nothingPending

/-! ### The table -/

/-- The transition a state takes (R110), the reset request first (log 5). In a terminal phase nothing is requested and
nothing is emitted (R121; log 4). -/
def nextAction (s : State) : Except Fault Action :=
  if s.rst then .ok (.goto (externalReset s))
  else
    match s.phase with
    | .awaitingOpcodeByte => .ok (opcodeAction s)
    | .awaitingModeByte => modeAction s
    | .awaitingDisplacementOrImmediate => fieldAction s
    | .complete => do
      let i ← s.acc.gathered
      pure (.run i)
    | .done => .ok (.goto (idleCursor s))
    | .faulted => .ok (.goto (idleCursor s))

/-- At most `n` gathering transitions, up to the state whose next step runs an instruction: this machine's fetch (log 8). -/
def gather (n : Nat) (s : State) : State :=
  match n with
  | 0 => s
  | k + 1 =>
    match nextAction s with
    | .ok (.goto t) => gather k t
    | .ok (.run _) => s
    | .error _ => s

/-- The instruction whose table word is `w`, placed at the position and gathered (log 8). The longest instruction is gathered
in four transitions (R126). -/
def placeTableWord (nbits w : Nat) (s : State) : State :=
  gather 4 (placeInstruction (tableBytes nbits w) s)

end Sys2Proof.Machine
end

