-- ==== Sys2Proof/Machine/Step.lean ====
section
/-! DEFINITION. One step: one transition of R110, with at most one cursor request (R34, D2). -/

namespace Sys2Proof.Machine

/-- One transition. Gathering transitions go on by themselves; a decided instruction runs its meaning. -/
def step (s : State) : Host.Outcome State Fault Refusal :=
  match nextAction s with
  | .ok (.goto t) => .next t
  | .ok (.run i) => exec i s
  | .error f => .fault f

/-- The state whose very next step runs the instruction with the table word `w` (log 8). -/
def State.withFetchWord (s : State) (nbits w : Nat) : State := placeTableWord nbits w s

end Sys2Proof.Machine
end

