-- ==== Sys2Proof/Machine/Codes.lean ====
section
/-! DEFINITION. Binary codes of the enumerated fields (R36) and of the outcomes (R190), for an implementation that needs bits.
They stand on no interface, and no step reads them (D5, D18). -/

namespace Sys2Proof.Machine

/-- Code of `phase`; 6 and 7 are unused. -/
def phaseCode : Phase → BitVec 3
  | .awaitingOpcodeByte => 0
  | .awaitingModeByte => 1
  | .awaitingDisplacementOrImmediate => 2
  | .complete => 3
  | .done => 4
  | .faulted => 5

/-- The phase of a code, if it is used (U9). -/
def phaseOfCode (c : BitVec 3) : Option Phase :=
  ([some .awaitingOpcodeByte, some .awaitingModeByte, some .awaitingDisplacementOrImmediate, some .complete, some .done,
    some .faulted] : List (Option Phase)).getD c.toNat none

/-- Code of `opcodeFamily`. -/
def familyCode : Family → BitVec 2
  | .registerOrMemoryToRegister => 0
  | .immediateToRegisterOrMemory => 1
  | .immediateToRegister => 2
  | .unrecognized => 3

/-- Code of `direction`: the `d` bit. -/
def directionCode : Direction → BitVec 1
  | .sourceIsRegister => 0
  | .destinationIsRegister => 1

/-- Code of `wide`: the `w` bit. -/
def wideCode (w : Bool) : BitVec 1 := BitVec.ofBool w

/-- Code of `addressingMode`; 5 to 7 are unused. -/
def addressingModeCode : AddressingMode → BitVec 3
  | .memoryNoDisplacement => 0
  | .memoryByteDisplacement => 1
  | .memoryWordDisplacement => 2
  | .registerDirect => 3
  | .directAddress => 4

/-- The addressing mode of a code, if it is used (U9). -/
def addressingModeOfCode (c : BitVec 3) : Option AddressingMode :=
  ([some .memoryNoDisplacement, some .memoryByteDisplacement, some .memoryWordDisplacement, some .registerDirect,
    some .directAddress] : List (Option AddressingMode)).getD c.toNat none

/-- Code of `err` (R190): 0 while the run is in progress. -/
def outcomeCode : Option FinalOutcome → Nat
  | none => 0
  | some .endOfStream => 1
  | some (.truncatedInstruction _ _) => 2
  | some (.unrecognizedOpcode _ _) => 3
  | some (.invalidFieldCombination _ _ _) => 4

end Sys2Proof.Machine
end

