-- ==== Sys2Proof/Machine/Render.lean ====
section
/-! DEFINITION. Text of the emitted records (R172 to R174, R79 to R81) and the tables of names (R160 to R163). The renderer is a
neighbour of the block (R4); these are functions of what the block emits and no step calls them. -/

namespace Sys2Proof.Machine

/-- The 8-bit register table `REG8` (R160). -/
def reg8Table : List String := ["al", "cl", "dl", "bl", "ah", "ch", "dh", "bh"]

/-- The 16-bit register table `REG16` (R161). -/
def reg16Table : List String := ["ax", "cx", "dx", "bx", "sp", "bp", "si", "di"]

/-- A name of an eight-entry table; every index has an entry, so the default is never taken (log 15). -/
def tableName (table : List String) (i : Index) : String := table.getD i.toNat ""

/-- `regName` (R163). -/
def regName (wide : Bool) (i : Index) : String := tableName (if wide then reg16Table else reg8Table) i

/-- The base register of a base expression, as an index of `REG16` (R162). -/
def baseRegister (rm : Index) : Option Index :=
  ([some 3, some 3, some 5, some 5, none, none, some 5, some 3] : List (Option Index)).getD rm.toNat none

/-- The index register of a base expression (R162). -/
def indexRegister (rm : Index) : Option Index :=
  ([some 6, some 7, some 6, some 7, some 6, some 7, none, none] : List (Option Index)).getD rm.toNat none

/-- The text of a base expression, `EABASE` (R162): base register plus index register, or the one there is. -/
def baseText (rm : Index) : String :=
  match baseRegister rm, indexRegister rm with
  | some b, some i => regName true b ++ " + " ++ regName true i
  | some b, none => regName true b
  | none, some i => regName true i
  | none, none => ""

/-- `dec(n)` (R7). -/
def dec (n : Int) : String := toString n

/-- The size keyword (R81). -/
def sizeKeyword : Width → String
  | .byte => "byte"
  | .word => "word"

/-- `text(operand)` (R172). A displacement or an immediate is printed signed, an address unsigned. -/
def operandText : Operand → String
  | .reg .byte i => regName false i
  | .reg .word i => regName true i
  | .mem rm none => "[" ++ baseText rm ++ "]"
  | .mem rm (some d) => "[" ++ baseText rm ++ " + " ++ dec d.toInt ++ "]"
  | .direct a => "[" ++ dec (Int.ofNat a.toNat) ++ "]"
  | .imm _ v false => dec v.toInt
  | .imm w v true => sizeKeyword w ++ " " ++ dec v.toInt

/-- The mnemonic's text (R79). -/
def mnemonicText : Mnemonic → String
  | .mov => "mov"

/-- `lineOf(record)` (R173). -/
def lineOf (r : DecodedInstruction) : String :=
  mnemonicText r.mnemonic ++ " " ++ operandText r.destinationOperand ++ ", " ++ operandText r.sourceOperand

/-- The lines of an item: a record gives one, a final outcome none (R174). -/
def itemLines : ResultItem → List String
  | .instruction r => [lineOf r]
  | .outcome _ => []

/-- The text of a run: the two header lines, then a line for each record (R80, R174, C4). -/
def outputLines (items : List ResultItem) : List String := "bits 16" :: "" :: items.flatMap itemLines

end Sys2Proof.Machine
end

