-- ==== Sys2Proof/Machine/Denote.lean ====
section
/-! DEFINITION. What the names of an operand denote on the decoded machine (R175, R176). The block neither computes nor uses any of
this. -/

namespace Sys2Proof.Machine

/-- Where an 8-bit register lies: the 16-bit register it is half of, and whether it is the high half (R175). -/
def halfOf (i : Index) : Index × Bool := (i &&& 3, decide (4 ≤ i.toNat))

/-- The 16-bit registers that have 8-bit halves (R175). -/
def hasHalves (i : Index) : Bool := decide (i.toNat < 4)

/-- The value of an absent or present part of a base expression; an absent one counts 0 (R176). A list of fewer than eight registers,
of which R176 says nothing, counts 0 for the missing ones (log 15). DESIGN CHOICE. -/
def partValue (regs : List Word) (part : Option Index) : Word :=
  match part with
  | some i => regs.getD i.toNat 0
  | none => 0

/-- The 16-bit offset an operand denotes, given the run-time values of `ax, cx, dx, bx, sp, bp, si, di` (R176): a sum modulo
2^16. Only memory operands denote one. -/
def denotedOffset (regs : List Word) : Operand → Option Word
  | .reg _ _ => none
  | .mem rm disp => some (partValue regs (baseRegister rm) + partValue regs (indexRegister rm) + disp.getD 0)
  | .direct a => some a
  | .imm _ _ _ => none

end Sys2Proof.Machine
end

