-- ==== Sys2Proof/Machine/Instances.lean ====
section
/-! DEFINITION. Several decoder instances (R207): each owns its state, and a step of one touches no other. -/

namespace Sys2Proof.Machine

/-- One step of the instance at a place of the list; a place that holds none changes nothing. -/
def stepInstance (k : Nat) (instances : List State) : Host.Outcome (List State) Fault Refusal :=
  match instances[k]? with
  | none => .next instances
  | some s =>
    match step s with
    | .next t => .next (instances.set k t)
    | .fault f => .fault f
    | .refused r => .refused r

/-- Steps of the instances in the order a schedule lists their places. -/
def runSchedule (schedule : List Nat) (instances : List State) : Host.Outcome (List State) Fault Refusal :=
  match schedule with
  | [] => .next instances
  | k :: rest =>
    match stepInstance k instances with
    | .next after => runSchedule rest after
    | .fault f => .fault f
    | .refused r => .refused r

end Sys2Proof.Machine
end

