-- ==== Sys2Proof/Machine/HostPort.lean ====
section
/-! DEFINITION. What the host can do to an instance (R202, R226 to R229): assert `rst`, load `BUF` while it is held, take the
items of the result interface. -/

namespace Sys2Proof.Machine

/-- The host asserts `rst`; the next step performs the reset (R220; log 5). -/
def assertReset (s : State) : State := { s with rst := true }

/-- The buffer that holds some bytes from offset 0 on, in canonical form. -/
def bufferOf (bytes : List Byte) : List Host.Cell := Memory.writeBytes [] 0 bytes

/-- The host loads a buffer, which it may do only while reset is asserted (R221); otherwise there is no such state (U7;
log 11). -/
def loadBuffer (bytes : List Byte) (s : State) : Option State :=
  if s.rst then some { s with mem := bufferOf bytes, len := bytes.length } else none

/-- The state after power-on with a loaded buffer: the reset state over it (R32, R220, R226). -/
def powerOn (bytes : List Byte) : State := { State.reset with mem := bufferOf bytes, len := bytes.length }

/-- What the result interface has delivered in the current run, in order (R33, R228). -/
def delivered (s : State) : List ResultItem := s.results

/-- A run is over when its final outcome is out (R229). -/
def runIsOver (s : State) : Bool := s.phase.isTerminal

end Sys2Proof.Machine
end

