-- ==== Sys2Proof/Machine/Run.lean ====
section
/-! DEFINITION. The big-step reading of the machine (R123) and, apart from the machine, the items of a run as a function of its
bytes (R208). -/

namespace Sys2Proof.Machine

/-- `n` steps, stopping at the first fault or refusal: the host's `Core.run` of this machine. -/
def stepMany (n : Nat) (s : State) : Host.Outcome State Fault Refusal :=
  match n with
  | 0 => .next s
  | k + 1 =>
    match step s with
    | .next t => stepMany k t
    | .fault f => .fault f
    | .refused r => .refused r

/-- Whether a state stands between two instructions or at the end of its run. -/
def atBoundary (s : State) : Bool := decide (s.phase = .awaitingOpcodeByte) || s.phase.isTerminal

/-- At most `n` steps, up to the next state between instructions or at the end of the run. -/
def toBoundary (n : Nat) (s : State) : Host.Outcome State Fault Refusal :=
  match n with
  | 0 => .next s
  | k + 1 =>
    match step s with
    | .next t => if atBoundary t then .next t else toBoundary k t
    | .fault f => .fault f
    | .refused r => .refused r

/-- `decodeOne` (R123): from between two instructions to the next boundary. No instruction takes more than five
transitions (R126). -/
def decodeOne (s : State) : Host.Outcome State Fault Refusal := toBoundary 5 s

/-- The step bound of a whole run (R124). -/
def runBound (len : Nat) : Nat := len + len / 2 + 1

/-- `decodeAll` (R123): the whole run from reset over a buffer. -/
def decodeAll (bytes : List Byte) : Host.Outcome State Fault Refusal :=
  stepMany (runBound bytes.length) (powerOn bytes)

/-- The transitions an instruction takes (R126), the one that runs it among them. -/
def transitionCount : Instr → Nat
  | .movRmRegDirectAddress _ _ _ => 4
  | .movRmRegMemoryNoDisplacement _ _ _ => 3
  | .movRmRegMemoryByteDisplacement _ _ _ _ => 4
  | .movRmRegMemoryWordDisplacement _ _ _ _ => 4
  | .movRmRegRegisterDirect _ _ _ => 3
  | .movRegRmDirectAddress _ _ _ => 4
  | .movRegRmMemoryNoDisplacement _ _ _ => 3
  | .movRegRmMemoryByteDisplacement _ _ _ _ => 4
  | .movRegRmMemoryWordDisplacement _ _ _ _ => 4
  | .movRegRmRegisterDirect _ _ _ => 3
  | .movRmImmDirectAddress _ _ _ => 5
  | .movRmImmMemoryNoDisplacement _ _ _ => 4
  | .movRmImmMemoryByteDisplacement _ _ _ _ => 5
  | .movRmImmMemoryWordDisplacement _ _ _ _ => 5
  | .movRmImmRegisterDirect _ _ _ => 4
  | .invalid _ _ => 2
  | .movRegImm _ _ _ => 3
  | .unrecognized _ => 1

/-- The operands of an instruction's record (R140 to R143); the rejected rows have none (R144, R145). -/
def operandsOf : Instr → Option (Operand × Operand)
  | .movRmRegDirectAddress w reg disp => some (registerMoveOperands .sourceIsRegister w reg (.directAddress disp))
  | .movRmRegMemoryNoDisplacement w reg rm => some (registerMoveOperands .sourceIsRegister w reg (.memoryNoDisplacement rm))
  | .movRmRegMemoryByteDisplacement w reg rm disp => some (registerMoveOperands .sourceIsRegister w reg (.memoryByteDisplacement rm disp))
  | .movRmRegMemoryWordDisplacement w reg rm disp => some (registerMoveOperands .sourceIsRegister w reg (.memoryWordDisplacement rm disp))
  | .movRmRegRegisterDirect w reg rm => some (registerMoveOperands .sourceIsRegister w reg (.registerDirect rm))
  | .movRegRmDirectAddress w reg disp => some (registerMoveOperands .destinationIsRegister w reg (.directAddress disp))
  | .movRegRmMemoryNoDisplacement w reg rm => some (registerMoveOperands .destinationIsRegister w reg (.memoryNoDisplacement rm))
  | .movRegRmMemoryByteDisplacement w reg rm disp => some (registerMoveOperands .destinationIsRegister w reg (.memoryByteDisplacement rm disp))
  | .movRegRmMemoryWordDisplacement w reg rm disp => some (registerMoveOperands .destinationIsRegister w reg (.memoryWordDisplacement rm disp))
  | .movRegRmRegisterDirect w reg rm => some (registerMoveOperands .destinationIsRegister w reg (.registerDirect rm))
  | .movRmImmDirectAddress w disp imm => some (immediateToRmOperands w (.directAddress disp) imm)
  | .movRmImmMemoryNoDisplacement w rm imm => some (immediateToRmOperands w (.memoryNoDisplacement rm) imm)
  | .movRmImmMemoryByteDisplacement w rm disp imm => some (immediateToRmOperands w (.memoryByteDisplacement rm disp) imm)
  | .movRmImmMemoryWordDisplacement w rm disp imm => some (immediateToRmOperands w (.memoryWordDisplacement rm disp) imm)
  | .movRmImmRegisterDirect w rm imm => some (immediateToRmOperands w (.registerDirect rm) imm)
  | .invalid _ _ => none
  | .movRegImm w reg imm => some (immediateToRegOperands w reg imm)
  | .unrecognized _ => none

/-- The record of an instruction that starts at an offset (R146 d: the length is the bytes consumed). -/
def recordOf (i : Instr) (start : Nat) : Option DecodedInstruction :=
  (operandsOf i).map fun o =>
    { mnemonic := .mov, destinationOperand := o.1, sourceOperand := o.2, start := start, length := i.length }

/-- The final outcome that ends a run whose next instruction starts at an offset, if the bytes there end it (R208). -/
def outcomeOf (start : Nat) (bytes : List Byte) : Option FinalOutcome :=
  match decode bytes with
  | .error .endOfBytes => some .endOfStream
  | .error (.truncated consumed) => some (.truncatedInstruction (start + consumed) start)
  | .ok (.unrecognized b, _) => some (.unrecognizedOpcode b start)
  | .ok (.invalid _ b, _) => some (.invalidFieldCombination b (start + 1) start)
  | .ok _ => none

/-- The items of a run over some bytes, the first at an offset, read from the encodings alone (R208): the records of the
whole instructions, then the final outcome. `fuel` bounds the number of items. -/
def itemsOf (fuel start : Nat) (bytes : List Byte) : List ResultItem :=
  match fuel with
  | 0 => []
  | k + 1 =>
    match outcomeOf start bytes with
    | some final => [.outcome final]
    | none =>
      match decode bytes with
      | .error _ => []
      | .ok (i, rest) =>
        ((recordOf i start).toList.map ResultItem.instruction) ++ itemsOf k (start + i.length) rest

end Sys2Proof.Machine
end

