-- ==== Sys2Proof/Safety.lean ====
section
/-! DEFINITION. What claims about the machine are stated in: states between two instructions, the invariant of a run, and how
states are compared. -/

namespace Sys2Proof.Machine

/-! ### Comparing states -/

/-- Equal but for what stands on the cursor ports, which the spec's own state does not hold (R10; log 7). -/
def sameButCursor (t u : State) : Prop := { t with cur := none } = { u with cur := none }

/-- The bytes an answer on `cur_rsp` delivered. -/
def responseBytes : CursorResponse → Nat
  | .byte _ => 1
  | .word _ => 2
  | .exhausted => 0

/-- The bytes the cursor delivered in the last step: none without a request. -/
def deliveredBytes (cur : Option CursorExchange) : Nat :=
  match cur with
  | none => 0
  | some exchange => responseBytes exchange.response

/-- The phases that make a cursor request (R34). -/
def Phase.isAwaiting : Phase → Bool
  | .awaitingOpcodeByte => true
  | .awaitingModeByte => true
  | .awaitingDisplacementOrImmediate => true
  | .complete => false
  | .done => false
  | .faulted => false

/-! ### The rules' tables over plain numbers -/

/-- The table of R64 over the numbers `mod` and `rm`: the addressing mode and its displacement bytes. -/
def modeTable (mod rm : Nat) : AddressingMode × ByteCount :=
  match mod with
  | 0 => if rm = 6 then (.directAddress, .two) else (.memoryNoDisplacement, .zero)
  | 1 => (.memoryByteDisplacement, .one)
  | 2 => (.memoryWordDisplacement, .two)
  | _ => (.registerDirect, .zero)

/-- `signed_16(hi ++ lo)` (R7): the integer two bytes denote, `lo` the low-order one. -/
def signedPair (lo hi : Byte) : Int :=
  if hi.toNat * 256 + lo.toNat < 32768 then (hi.toNat * 256 + lo.toNat : Nat)
  else (hi.toNat * 256 + lo.toNat : Nat) - 65536

/-- The two register indices of a base expression with two parts, `rm` 0 to 3 (R162): `bx` is 3, `bp` 5, `si` 6, `di` 7. -/
def basePair (rm : Nat) : Nat × Nat :=
  match rm with
  | 0 => (3, 6)
  | 1 => (3, 7)
  | 2 => (5, 6)
  | _ => (5, 7)

/-- The one register index of a base expression with one part, `rm` 4 to 7 (R162). -/
def baseSingle (rm : Nat) : Nat :=
  match rm with
  | 4 => 6
  | 5 => 7
  | 6 => 5
  | _ => 3

/-- The width an operand carries, if it carries one (R33, R166). -/
def operandWidth : Operand → Option Width
  | .reg w _ => some w
  | .mem _ _ => none
  | .direct _ => none
  | .imm w _ _ => some w

/-! ### Where a run stands -/

/-- Between two instructions (R13, R223), with no reset requested. -/
def BetweenInstructions (s : State) : Prop :=
  s.rst = false ∧ s.phase = .awaitingOpcodeByte ∧ s.acc = DecodeState.neutral

/-- The state that completion leaves (R120): one record emitted, the accumulator neutral, no cursor request. -/
def afterRecord (s : State) (record : DecodedInstruction) : State :=
  { s with
    results := s.results ++ [.instruction record]
    acc := DecodeState.neutral
    phase := .awaitingOpcodeByte
    cur := none }

/-! ### The invariant of a run -/

/-- The number of displacement bytes of a stored addressing mode (R64). -/
def displacementCount : AddressingMode → ByteCount
  | .registerDirect => .zero
  | .memoryNoDisplacement => .zero
  | .memoryByteDisplacement => .one
  | .memoryWordDisplacement => .two
  | .directAddress => .two

/-- The number of immediate bytes of an immediate family (R65). -/
def immediateCount (wide : Bool) : ByteCount := if wide then .two else .one

/-- The displacement is either still pending or stored (R21, R117). -/
def DisplacementFits (a : DecodeState) (am : AddressingMode) : Prop :=
  (a.pendingBytes.disp = displacementCount am ∧ a.displacement = none) ∨
  (a.pendingBytes.disp = .zero ∧ displacementCount am ≠ .zero ∧
    ∃ d, a.displacement = some d ∧ (am = .memoryByteDisplacement → isSignedByte d = true))

/-- The immediate is either still pending or stored (R22, R118). -/
def ImmediateFits (a : DecodeState) : Prop :=
  ∃ w, a.wide = some w ∧
    ((a.pendingBytes.imm = immediateCount w ∧ a.immediate = none) ∨
     (a.pendingBytes.imm = .zero ∧ a.pendingBytes.disp = .zero ∧
       ∃ v, a.immediate = some v ∧ immediateFits w v = true))

/-- The fields of the mode byte are stored (R18 to R20, R97). -/
def ModeFieldsFit (a : DecodeState) : Prop :=
  a.wide.isSome = true ∧ a.regField.isSome = true ∧
  ∃ am rm, a.addressingMode = some am ∧ a.rmField = some rm ∧
    (am = .directAddress → rm = 6#3) ∧ (am = .memoryNoDisplacement → rm ≠ 6#3) ∧ DisplacementFits a am

/-- After the opcode byte and, in the families that have one, the mode byte: the table of R26, read for fields that may
still be pending. -/
def FieldsFit (a : DecodeState) : Prop :=
  a.pendingBytes.mode = false ∧
  match a.opcodeFamily with
  | some .registerOrMemoryToRegister =>
    a.direction.isSome = true ∧ ModeFieldsFit a ∧ a.immediate = none ∧ a.pendingBytes.imm = .zero
  | some .immediateToRegisterOrMemory =>
    a.direction = none ∧ ModeFieldsFit a ∧ a.regField = some 0#3 ∧ ImmediateFits a
  | some .immediateToRegister =>
    a.direction = none ∧ a.addressingMode = none ∧ a.rmField = none ∧ a.displacement = none ∧
      a.regField.isSome = true ∧ a.pendingBytes.disp = .zero ∧ ImmediateFits a
  | some .unrecognized => False
  | none => False

/-- After the opcode byte of a family with a mode byte (R112). -/
def ModeByteAwaited (a : DecodeState) : Prop :=
  a.wide.isSome = true ∧ a.addressingMode = none ∧ a.regField = none ∧ a.rmField = none ∧ a.displacement = none ∧
  a.immediate = none ∧ a.pendingBytes = { mode := true, disp := .zero, imm := .zero } ∧
  ((a.opcodeFamily = some .registerOrMemoryToRegister ∧ a.direction.isSome = true) ∨
   (a.opcodeFamily = some .immediateToRegisterOrMemory ∧ a.direction = none))

/-- The bytes of the current instruction that are consumed, read from what is stored (R66). -/
def consumedBytes (a : DecodeState) : Nat :=
  1 + (match a.addressingMode with
       | none => 0
       | some am => 1 + (if a.displacement.isSome then (displacementCount am).toNat else 0))
    + (if a.immediate.isSome then immLength (a.wide.getD false) else 0)

/-- `instrStart` and `pos` enclose the consumed bytes of the current instruction (R24, R100). -/
def StartFits (s : State) : Prop := ∃ start, s.acc.instrStart = some start ∧ s.pos = start + consumedBytes s.acc

/-- What each phase says of the accumulator (R14, R23, R26, R116, R223). In `Faulted` nothing is claimed (U5). -/
def PhaseFits (s : State) : Prop :=
  match s.phase with
  | .awaitingOpcodeByte => s.acc = DecodeState.neutral
  | .awaitingModeByte => ModeByteAwaited s.acc ∧ StartFits s
  | .awaitingDisplacementOrImmediate =>
    FieldsFit s.acc ∧ StartFits s ∧ ¬ (s.acc.pendingBytes.disp = .zero ∧ s.acc.pendingBytes.imm = .zero)
  | .complete => FieldsFit s.acc ∧ StartFits s ∧ s.acc.pendingBytes = PendingBytes.nothing
  | .done => s.acc = DecodeState.neutral ∧ s.pos = s.len
  | .faulted => True

/-- `err` holds an outcome exactly in the terminal phases, of the kind the phase says (R25). -/
def OutcomeFits (s : State) : Prop :=
  match s.phase with
  | .awaitingOpcodeByte => s.err = none
  | .awaitingModeByte => s.err = none
  | .awaitingDisplacementOrImmediate => s.err = none
  | .complete => s.err = none
  | .done => s.err = some .endOfStream
  | .faulted => ∃ e, s.err = some e ∧ e.isFatal = true

/-- The result interface has carried records and then the final outcome, once there is one (R33). -/
def ResultsFit (s : State) : Prop :=
  ∃ records : List DecodedInstruction,
    s.results = records.map ResultItem.instruction ++ s.err.toList.map ResultItem.outcome

/-- The buffer is in canonical form and lies below `LEN` (R11; log 1). -/
def BufferFits (s : State) : Prop := Memory.wf s.mem = true ∧ ∀ c ∈ s.mem, c.1 < s.len

/-- The invariant of a run. -/
structure RunInv (s : State) : Prop where
  buffer : BufferFits s
  position : s.pos ≤ s.len
  accumulator : PhaseFits s
  outcome : OutcomeFits s
  results : ResultsFit s

/-! ### The records tile the buffer -/

/-- Records that follow one another without gap from one offset to another (R52, R125, R146 d), each of a length an
instruction has (R66). -/
def Tiles (first last : Nat) (records : List DecodedInstruction) : Prop :=
  match records with
  | [] => first = last
  | r :: rest => r.start = first ∧ 2 ≤ r.length ∧ r.length ≤ 6 ∧ Tiles (first + r.length) last rest

/-- Where the instruction now in progress, or the one that ended the run, starts; between instructions the position. -/
def currentStart (s : State) : Nat :=
  match s.err with
  | none => s.acc.instrStart.getD s.pos
  | some .endOfStream => s.pos
  | some (.truncatedInstruction _ start) => start
  | some (.unrecognizedOpcode _ offset) => offset
  | some (.invalidFieldCombination _ _ start) => start

/-- The records emitted so far cover the buffer from the entry point to the current instruction. -/
def RecordsTile (s : State) : Prop :=
  ∃ records : List DecodedInstruction,
    s.results = records.map ResultItem.instruction ++ s.err.toList.map ResultItem.outcome ∧
    Tiles Config.entryPoint (currentStart s) records

/-! ### The position register -/

/-- The host's obligation on the buffer's length (R227). -/
def LengthFits (s : State) : Prop := s.len < 2 ^ Config.posWidth

end Sys2Proof.Machine
end

