-- ==== Sys2Proof/Certificates/Slice0/Obligations.lean ====
section
/-! DEFINITION. The statements about the machine, each the formal text of an entry of OBLIGATIONS.json. -/

open Sys2Proof Sys2Proof.Machine

/-! ### Reset and the host's ports -/

/-- R32's reset state meets both invariants. The empty buffer, the idle ports and the empty result list in it are the model's
(log 1, log 5, log 6, log 7). -/
def Obligations.ResetStateMeetsInvariants : Prop :=
  RunInv State.reset ∧ RecordsTile State.reset

/-- R220, R221, R32: from any state a requested reset leaves the reset values over the same buffer. That the request is a flag
which the step takes first and clears is the model's (log 5), the ports' values are log 6 and log 7. -/
def Obligations.ResetRequestStartsNewRun : Prop :=
  ∀ s : State, s.rst = true →
    step s = .next
      { mem := s.mem
        len := s.len
        pos := 0
        phase := .awaitingOpcodeByte
        acc :=
          { opcodeFamily := none, direction := none, wide := none, addressingMode := none, regField := none,
            rmField := none, displacement := none, immediate := none,
            pendingBytes := { mode := false, disp := .zero, imm := .zero }, instrStart := none }
        err := none
        results := []
        rst := false
        cur := none }

/-- R221, R226: a buffer is loaded only while reset is requested, and the reset that follows starts a run over exactly those
bytes (log 5, log 11). -/
def Obligations.BufferIsLoadedUnderReset : Prop :=
  ∀ (bytes : List Byte) (s : State),
    (s.rst = false → loadBuffer bytes s = none) ∧
    (s.rst = true → ∃ loaded, loadBuffer bytes s = some loaded ∧ step loaded = .next (powerOn bytes))

/-- R11, R51: the loaded buffer is the bytes from offset 0 on, and its reset state meets both invariants (log 1). -/
def Obligations.LoadedBufferHoldsItsBytes : Prop :=
  ∀ bytes : List Byte,
    (powerOn bytes).bytesFrom 0 = bytes ∧ RunInv (powerOn bytes) ∧ RecordsTile (powerOn bytes)

/-! ### The buffer and the cursor -/

/-- R43. -/
def Obligations.ReadByteDeliversByteAtPosition : Prop :=
  ∀ s : State,
    (s.pos < s.len →
      (readByte s).1 = some (Memory.read s.mem s.pos) ∧ sameButCursor (readByte s).2 { s with pos := s.pos + 1 }) ∧
    (¬ s.pos < s.len → (readByte s).1 = none ∧ sameButCursor (readByte s).2 s)

/-- R44. -/
def Obligations.ReadWordIsLittleEndianAndWhole : Prop :=
  ∀ s : State,
    (s.pos + 2 ≤ s.len →
      ∃ v : Word, (readWord s).1 = some v ∧
        v.toNat = (Memory.read s.mem (s.pos + 1)).toNat * 256 + (Memory.read s.mem s.pos).toNat ∧
        sameButCursor (readWord s).2 { s with pos := s.pos + 2 }) ∧
    (¬ s.pos + 2 ≤ s.len → (readWord s).1 = none ∧ sameButCursor (readWord s).2 s)

/-- R45, an inference the spec draws from R43 and R44. -/
def Obligations.ExhaustedExactlyAtTheEnd : Prop :=
  ∀ s : State, s.pos ≤ s.len →
    (isExhausted s = true ↔ s.pos = s.len) ∧
    ((readByte s).1 = none ↔ isExhausted s = true) ∧
    ((readWord s).1 = none ↔ isExhausted s = true ∨ s.pos + 1 = s.len)

/-- R41: no step and no meaning writes the buffer. -/
def Obligations.BufferIsNeverWritten : Prop :=
  (∀ s t : State, step s = .next t → t.mem = s.mem ∧ t.len = s.len) ∧
  (∀ (i : Instr) (s t : State), exec i s = .next t → t.mem = s.mem ∧ t.len = s.len)

/-- R13, R34, R233: a step moves the position forward by what the cursor delivered in it, makes a request exactly in the
three awaiting phases, and stays in the buffer. The recorded exchange is the model's (log 7). -/
def Obligations.CursorMovesForwardByItsReads : Prop :=
  ∀ s t : State, s.rst = false → step s = .next t →
    t.pos = s.pos + deliveredBytes t.cur ∧
    t.cur.isSome = s.phase.isAwaiting ∧
    (s.pos ≤ s.len → t.pos ≤ t.len)

/-- R13, R100, R227: a position register wide enough for `LEN` is wide enough for every position of a run (log 2). -/
def Obligations.PositionFitsItsRegister : Prop :=
  ∀ s t : State, RunInv s → LengthFits s → step s = .next t → t.pos < 2 ^ Config.posWidth

/-! ### The field extractor, decoding and encoding -/

/-- R95: the three fields of the mode byte, as bits and as masks, and that no other decomposition exists. -/
def Obligations.ModeByteHasOneDecomposition : Prop :=
  ∀ b1 : Byte,
    (modeBits b1).toNat = (b1.toNat &&& 0xC0) >>> 6 ∧
    (regBits b1).toNat = (b1.toNat &&& 0x38) >>> 3 ∧
    (rmBits b1).toNat = b1.toNat &&& 0x07 ∧
    b1.toNat = (modeBits b1).toNat * 64 + (regBits b1).toNat * 8 + (rmBits b1).toNat ∧
    ∀ mod reg rm : Nat, mod < 4 → reg < 8 → rm < 8 → b1.toNat = mod * 64 + reg * 8 + rm →
      mod = (modeBits b1).toNat ∧ reg = (regBits b1).toNat ∧ rm = (rmBits b1).toNat

/-- R97. -/
def Obligations.ModeAndRmGiveAddressingMode : Prop :=
  ∀ (mod : BitVec 2) (rm : Index),
    (mod.toNat = 0 → rm.toNat ≠ 6 → modeOf mod rm = (.memoryNoDisplacement, .zero)) ∧
    (mod.toNat = 0 → rm.toNat = 6 → modeOf mod rm = (.directAddress, .two)) ∧
    (mod.toNat = 1 → modeOf mod rm = (.memoryByteDisplacement, .one)) ∧
    (mod.toNat = 2 → modeOf mod rm = (.memoryWordDisplacement, .two)) ∧
    (mod.toNat = 3 → modeOf mod rm = (.registerDirect, .zero))

/-- R73, R75, R91: which first bytes are which family, and that exactly the others decode to `UNRECOGNIZED`, whatever
follows them. The patterns are the spec's general knowledge (D8; log 12). -/
def Obligations.FirstByteDecidesFamily : Prop :=
  ∀ (b0 : Byte) (rest : List Byte),
    (classify b0 = .registerOrMemoryToRegister ↔ 0x88 ≤ b0.toNat ∧ b0.toNat ≤ 0x8B) ∧
    (classify b0 = .immediateToRegisterOrMemory ↔ b0.toNat = 0xC6 ∨ b0.toNat = 0xC7) ∧
    (classify b0 = .immediateToRegister ↔ 0xB0 ≤ b0.toNat ∧ b0.toNat ≤ 0xBF) ∧
    (decode (b0 :: rest) = .ok (.unrecognized b0, rest) ↔ isUnrecognizedByte b0 = true)

/-- The round trip from instructions: every operand at every value the encoding admits, whatever bytes follow. -/
def Obligations.DecodeAfterEncode : Prop :=
  ∀ (i : Instr) (rest : List Byte), WellFormed i = true → decode (encode i ++ rest) = .ok (i, rest)

/-- The round trip from bytes: what decodes is well-formed and encodes to the bytes it was read from. -/
def Obligations.EncodeAfterDecode : Prop :=
  ∀ (bytes : List Byte) (i : Instr) (rest : List Byte), decode bytes = .ok (i, rest) →
    WellFormed i = true ∧ encode i ++ rest = bytes

/-- R208's last case: bytes that hold no whole instruction are a proper prefix of an admitted one (a MOV, not a rejected row), and
the bytes before the field that is not whole are among them. -/
def Obligations.TruncatedBytesArePrefixes : Prop :=
  ∀ (bytes : List Byte) (consumed : Nat), decode bytes = .error (.truncated consumed) →
    1 ≤ consumed ∧ consumed ≤ bytes.length ∧
    ∃ i missing, WellFormed i = true ∧ operandsOf i ≠ none ∧ missing ≠ [] ∧ encode i = bytes ++ missing

/-- Words written out from the encodings: the source's three examples and one of each other family (95_test_vectors.md). -/
def Obligations.WorkedWordsDecode : Prop :=
  decode [0x89, 0xD8] = .ok (.movRmRegRegisterDirect true 3 0, []) ∧
  decode [0x8A, 0x00] = .ok (.movRegRmMemoryNoDisplacement false 0 0, []) ∧
  decode [0x8B, 0x4E, 0x02] = .ok (.movRegRmMemoryByteDisplacement true 1 6 2, []) ∧
  decode [0xC7, 0x85, 0x85, 0x03, 0x5B, 0x01] = .ok (.movRmImmMemoryWordDisplacement true 5 901 347, []) ∧
  decode [0xB9, 0xF4, 0xFF] = .ok (.movRegImm true 1 (-12), []) ∧
  decode [0xC6, 0x08, 0x07, 0x00] = .ok (.invalid false 0x08, [0x07, 0x00]) ∧
  decode [0x0F, 0x89, 0xD8] = .ok (.unrecognized 0x0F, [0x89, 0xD8])

/-- R78 (a): a register-to-register move has two encodings, of different bytes, with the same operands. -/
def Obligations.RegisterMovesHaveTwoEncodings : Prop :=
  ∀ (w : Bool) (a b : Index),
    ∃ i j, decode [rmRegByte .sourceIsRegister w, modeByteOf 3 a b] = .ok (i, []) ∧
      decode [rmRegByte .destinationIsRegister w, modeByteOf 3 b a] = .ok (j, []) ∧
      operandsOf i = operandsOf j ∧ operandsOf i = some (.reg (if w then .word else .byte) b, .reg (if w then .word else .byte) a) ∧
      encode i ≠ encode j

/-! ### The transitions, one by one -/

/-- R111 (D3). -/
def Obligations.EndOfStreamEndsRun : Prop :=
  ∀ s : State, s.rst = false → s.phase = .awaitingOpcodeByte → s.len ≤ s.pos →
    step s = .next
      { s with
        phase := .done
        err := some .endOfStream
        results := s.results ++ [.outcome .endOfStream]
        cur := some { request := .readByte, response := .exhausted } }

/-- R112 (D9, D10, D27): what the first byte establishes in each family. -/
def Obligations.OpcodeByteEstablishesFields : Prop :=
  ∀ (s : State) (b0 : Byte), s.rst = false → s.phase = .awaitingOpcodeByte → s.pos < s.len →
    Memory.read s.mem s.pos = b0 →
    (0x88 ≤ b0.toNat ∧ b0.toNat ≤ 0x8B →
      step s = .next
        { s with
          pos := s.pos + 1
          phase := .awaitingModeByte
          acc := { s.acc with
            instrStart := some s.pos
            opcodeFamily := some .registerOrMemoryToRegister
            direction := some (if b0.toNat / 2 % 2 = 1 then .destinationIsRegister else .sourceIsRegister)
            wide := some (decide (b0.toNat % 2 = 1))
            pendingBytes := { mode := true, disp := .zero, imm := .zero } }
          cur := some { request := .readByte, response := .byte b0 } }) ∧
    (b0.toNat = 0xC6 ∨ b0.toNat = 0xC7 →
      step s = .next
        { s with
          pos := s.pos + 1
          phase := .awaitingModeByte
          acc := { s.acc with
            instrStart := some s.pos
            opcodeFamily := some .immediateToRegisterOrMemory
            wide := some (decide (b0.toNat % 2 = 1))
            pendingBytes := { mode := true, disp := .zero, imm := .zero } }
          cur := some { request := .readByte, response := .byte b0 } }) ∧
    (0xB0 ≤ b0.toNat ∧ b0.toNat ≤ 0xBF →
      step s = .next
        { s with
          pos := s.pos + 1
          phase := .awaitingDisplacementOrImmediate
          acc := { s.acc with
            instrStart := some s.pos
            opcodeFamily := some .immediateToRegister
            wide := some (decide (b0.toNat / 8 % 2 = 1))
            regField := some (BitVec.ofNat 3 (b0.toNat % 8))
            pendingBytes := { mode := false, disp := .zero, imm := if b0.toNat / 8 % 2 = 1 then .two else .one } }
          cur := some { request := .readByte, response := .byte b0 } })

/-- R113: the outcome, and that no later byte is read and nothing more is emitted, in however many steps. -/
def Obligations.UnrecognizedFirstByteEndsRun : Prop :=
  ∀ (s : State) (b0 : Byte), s.rst = false → s.phase = .awaitingOpcodeByte → s.pos < s.len →
    Memory.read s.mem s.pos = b0 → classify b0 = .unrecognized →
    ∃ t, step s = .next t ∧
      sameButCursor t
        { s with
          pos := s.pos + 1
          phase := .faulted
          acc := { s.acc with opcodeFamily := some .unrecognized }
          err := some (.unrecognizedOpcode b0 s.pos)
          results := s.results ++ [.outcome (.unrecognizedOpcode b0 s.pos)] } ∧
      ∀ (n : Nat) (u : State), stepMany n t = .next u → u.pos = t.pos ∧ u.results = t.results

/-- R114, R97, R64 (D13): what the mode byte establishes in the two families that have one. -/
def Obligations.ModeByteEstablishesFields : Prop :=
  ∀ (s : State) (b1 : Byte) (f : Family) (w : Bool), s.rst = false → s.phase = .awaitingModeByte → s.pos < s.len →
    Memory.read s.mem s.pos = b1 → s.acc.opcodeFamily = some f → s.acc.wide = some w →
    (f = .registerOrMemoryToRegister ∨ (f = .immediateToRegisterOrMemory ∧ b1.toNat / 8 % 8 = 0)) →
    ∃ t am disp imm, step s = .next t ∧
      (am, disp) = modeTable (b1.toNat / 64) (b1.toNat % 8) ∧
      imm = (if f = .registerOrMemoryToRegister then ByteCount.zero else if w then .two else .one) ∧
      t = { s with
        pos := s.pos + 1
        phase := if disp = .zero ∧ imm = .zero then .complete else .awaitingDisplacementOrImmediate
        acc := { s.acc with
          regField := some (BitVec.ofNat 3 (b1.toNat / 8 % 8))
          rmField := some (BitVec.ofNat 3 (b1.toNat % 8))
          addressingMode := some am
          pendingBytes := { mode := false, disp := disp, imm := imm } }
        cur := some { request := .readByte, response := .byte b1 } }

/-- R115, R76 (D11). -/
def Obligations.InvalidModeByteEndsRun : Prop :=
  ∀ (s : State) (b1 : Byte) (w : Bool) (start : Nat), s.rst = false → s.phase = .awaitingModeByte → s.pos < s.len →
    Memory.read s.mem s.pos = b1 → s.acc.opcodeFamily = some .immediateToRegisterOrMemory → s.acc.wide = some w →
    s.acc.instrStart = some start → b1.toNat / 8 % 8 ≠ 0 →
    step s = .next
      { s with
        pos := s.pos + 1
        phase := .faulted
        err := some (.invalidFieldCombination b1 s.pos start)
        results := s.results ++ [.outcome (.invalidFieldCombination b1 s.pos start)]
        cur := some { request := .readByte, response := .byte b1 } }

/-- R117: a displacement of one byte through `readByte`, sign-extended, or of two bytes through `readWord`, little endian. -/
def Obligations.DisplacementIsGathered : Prop :=
  ∀ s : State, s.rst = false → s.phase = .awaitingDisplacementOrImmediate →
    (s.acc.pendingBytes.disp = .one → s.pos + 1 ≤ s.len →
      ∃ (t : State) (v : Word), step s = .next t ∧ v.toInt = (Memory.read s.mem s.pos).toInt ∧
        t.cur = some { request := .readByte, response := .byte (Memory.read s.mem s.pos) } ∧
        sameButCursor t
          { s with
            pos := s.pos + 1
            phase := if s.acc.pendingBytes.imm = .zero then .complete else .awaitingDisplacementOrImmediate
            acc := { s.acc with
              displacement := some v
              pendingBytes := { s.acc.pendingBytes with disp := .zero } } }) ∧
    (s.acc.pendingBytes.disp = .two → s.pos + 2 ≤ s.len →
      ∃ (t : State) (v : Word), step s = .next t ∧
        v.toInt = signedPair (Memory.read s.mem s.pos) (Memory.read s.mem (s.pos + 1)) ∧
        t.cur = some { request := .readWord, response := .word v } ∧
        sameButCursor t
          { s with
            pos := s.pos + 2
            phase := if s.acc.pendingBytes.imm = .zero then .complete else .awaitingDisplacementOrImmediate
            acc := { s.acc with
              displacement := some v
              pendingBytes := { s.acc.pendingBytes with disp := .zero } } })

/-- R118 (D12): an immediate of one or two bytes, once no displacement is pending. -/
def Obligations.ImmediateIsGathered : Prop :=
  ∀ s : State, s.rst = false → s.phase = .awaitingDisplacementOrImmediate → s.acc.pendingBytes.disp = .zero →
    (s.acc.pendingBytes.imm = .one → s.pos + 1 ≤ s.len →
      ∃ (t : State) (v : Word), step s = .next t ∧ v.toInt = (Memory.read s.mem s.pos).toInt ∧
        t = { s with
          pos := s.pos + 1
          phase := .complete
          acc := { s.acc with
            immediate := some v
            pendingBytes := { s.acc.pendingBytes with imm := .zero } }
          cur := some { request := .readByte, response := .byte (Memory.read s.mem s.pos) } }) ∧
    (s.acc.pendingBytes.imm = .two → s.pos + 2 ≤ s.len →
      ∃ (t : State) (v : Word), step s = .next t ∧
        v.toInt = signedPair (Memory.read s.mem s.pos) (Memory.read s.mem (s.pos + 1)) ∧
        t = { s with
          pos := s.pos + 2
          phase := .complete
          acc := { s.acc with
            immediate := some v
            pendingBytes := { s.acc.pendingBytes with imm := .zero } }
          cur := some { request := .readWord, response := .word v } })

/-- R119, R194 (D19): a field that is not whole ends the run, and nothing of it is consumed. -/
def Obligations.UnfinishedInstructionEndsRun : Prop :=
  ∀ (s : State) (start : Nat), s.rst = false → s.acc.instrStart = some start →
    ((s.phase = .awaitingModeByte ∧ s.len < s.pos + 1) ∨
     (s.phase = .awaitingDisplacementOrImmediate ∧ s.acc.pendingBytes.disp = .one ∧ s.len < s.pos + 1) ∨
     (s.phase = .awaitingDisplacementOrImmediate ∧ s.acc.pendingBytes.disp = .two ∧ s.len < s.pos + 2) ∨
     (s.phase = .awaitingDisplacementOrImmediate ∧ s.acc.pendingBytes.disp = .zero ∧ s.acc.pendingBytes.imm = .one ∧
       s.len < s.pos + 1) ∨
     (s.phase = .awaitingDisplacementOrImmediate ∧ s.acc.pendingBytes.disp = .zero ∧ s.acc.pendingBytes.imm = .two ∧
       s.len < s.pos + 2)) →
    ∃ t, step s = .next t ∧
      sameButCursor t
        { s with
          phase := .faulted
          err := some (.truncatedInstruction s.pos start)
          results := s.results ++ [.outcome (.truncatedInstruction s.pos start)] }

/-- R121 (D3, D28): the terminal phases. That a step there answers the same state, with idle cursor ports, is the model's
reading of "no transition is enabled" (log 4). -/
def Obligations.TerminalPhasesStay : Prop :=
  ∀ s : State, s.rst = false → s.phase = .done ∨ s.phase = .faulted → step s = .next { s with cur := none }

/-- R191: `EndOfStream` arises exactly when the read of an opcode byte is `Exhausted`, is no error, and then every byte of the
buffer has been decoded. -/
def Obligations.EndOfStreamOnlyBetweenInstructions : Prop :=
  ∀ s t : State, RunInv s → RecordsTile s → s.rst = false → s.err = none → step s = .next t →
    (t.err = some .endOfStream ↔ s.phase = .awaitingOpcodeByte ∧ s.pos = s.len) ∧
    (t.err = some .endOfStream →
      t.phase = .done ∧ t.cur = some { request := .readByte, response := .exhausted } ∧
      FinalOutcome.endOfStream.isFatal = false ∧
      ∃ records : List DecodedInstruction,
        t.results = records.map ResultItem.instruction ++ [.outcome .endOfStream] ∧ Tiles 0 t.len records)

/-! ### Running the decided instruction -/

/-- A step runs the instruction that is decided: the one a completed accumulator holds, and the two that a byte at the
position rejects (log 8). -/
def Obligations.StepRunsTheDecidedInstruction : Prop :=
  ∀ s : State, s.rst = false →
    (∀ i, s.phase = .complete → s.acc.gathered = .ok i → step s = exec i s) ∧
    (∀ b0, s.phase = .awaitingOpcodeByte → s.byteAt s.pos = some b0 → classify b0 = .unrecognized →
      step s = exec (.unrecognized b0) s) ∧
    (∀ b1 w, s.phase = .awaitingModeByte → s.byteAt s.pos = some b1 →
      s.acc.opcodeFamily = some .immediateToRegisterOrMemory → s.acc.wide = some w → regBits b1 ≠ 0#3 →
      step s = exec (.invalid w b1) s)

/-- A step runs the decoded instruction: when the bytes at the position decode to an instruction, the gathering transitions
that R126 counts lead to a state whose step is that instruction's meaning, and nothing but the position, the
accumulator, the phase and the cursor ports has changed (log 8). -/
def Obligations.BytesAtPositionAreRun : Prop :=
  ∀ (s : State) (i : Instr) (rest : List Byte), BetweenInstructions s →
    decode (s.bytesFrom s.pos) = .ok (i, rest) →
    ∃ t, stepMany (transitionCount i - 1) s = .next t ∧ step t = exec i t ∧
      t.mem = s.mem ∧ t.len = s.len ∧ t.err = s.err ∧ t.results = s.results ∧ t.rst = false ∧
      (operandsOf i ≠ none → t.acc.instrStart = some s.pos ∧ t.pos = s.pos + i.length) ∧
      (operandsOf i = none → t.pos + 1 = s.pos + i.length)

/-- R140 to R143, R146, R126: from between two instructions, the whole effect of a MOV whose bytes stand at the position: the
bytes are consumed, one record leaves, and the machine is between instructions again. -/
def Obligations.WholeMovEmitsItsRecord : Prop :=
  ∀ (s : State) (i : Instr) (rest : List Byte) (dst src : Operand), BetweenInstructions s →
    decode (s.bytesFrom s.pos) = .ok (i, rest) → operandsOf i = some (dst, src) →
    stepMany (transitionCount i) s = .next
      { s with
        pos := s.pos + i.length
        results := s.results ++ [.instruction
          { mnemonic := .mov, destinationOperand := dst, sourceOperand := src, start := s.pos, length := i.length }]
        cur := none }

/-- R144, R145, R126: from between two instructions, the whole effect of a rejected encoding. -/
def Obligations.WholeRejectionEndsRun : Prop :=
  ∀ (s : State) (i : Instr) (rest : List Byte), BetweenInstructions s →
    decode (s.bytesFrom s.pos) = .ok (i, rest) →
    (∀ b, i = .unrecognized b →
      ∃ t, stepMany 1 s = .next t ∧ t.phase = .faulted ∧ t.pos = s.pos + 1 ∧
        t.err = some (.unrecognizedOpcode b s.pos) ∧
        t.results = s.results ++ [.outcome (.unrecognizedOpcode b s.pos)]) ∧
    (∀ w b, i = .invalid w b →
      ∃ t, stepMany 2 s = .next t ∧ t.phase = .faulted ∧ t.pos = s.pos + 2 ∧
        t.err = some (.invalidFieldCombination b (s.pos + 1) s.pos) ∧
        t.results = s.results ++ [.outcome (.invalidFieldCombination b (s.pos + 1) s.pos)])

/-- The instruction placed for the host is the one the very next step runs, from any state (log 8). -/
def Obligations.PlacedWordIsRunNext : Prop :=
  ∀ (s : State) (nbits w : Nat) (i : Instr), Memory.wf s.mem = true → decodeTableWord nbits w = some i →
    step (s.withFetchWord nbits w) = exec i (s.withFetchWord nbits w)

/-! ### The meanings: what each instruction answers -/

/-- R140, R120, R170: rows 1 to 5. -/
def Obligations.MovRmRegEmitsRecord : Prop :=
  ∀ (w : Bool) (reg rm : Index) (disp : Word) (s : State) (start : Nat), s.acc.instrStart = some start →
    let record (dst : Operand) : DecodedInstruction :=
      { mnemonic := .mov, destinationOperand := dst, sourceOperand := .reg (if w then .word else .byte) reg,
        start := start, length := s.pos - start }
    exec (.movRmRegDirectAddress w reg disp) s = .next (afterRecord s (record (.direct disp))) ∧
    exec (.movRmRegMemoryNoDisplacement w reg rm) s = .next (afterRecord s (record (.mem rm none))) ∧
    exec (.movRmRegMemoryByteDisplacement w reg rm disp) s = .next (afterRecord s (record (.mem rm (some disp)))) ∧
    exec (.movRmRegMemoryWordDisplacement w reg rm disp) s = .next (afterRecord s (record (.mem rm (some disp)))) ∧
    exec (.movRmRegRegisterDirect w reg rm) s = .next (afterRecord s (record (.reg (if w then .word else .byte) rm)))

/-- R141, R120, R170: rows 6 to 10. -/
def Obligations.MovRegRmEmitsRecord : Prop :=
  ∀ (w : Bool) (reg rm : Index) (disp : Word) (s : State) (start : Nat), s.acc.instrStart = some start →
    let record (src : Operand) : DecodedInstruction :=
      { mnemonic := .mov, destinationOperand := .reg (if w then .word else .byte) reg, sourceOperand := src,
        start := start, length := s.pos - start }
    exec (.movRegRmDirectAddress w reg disp) s = .next (afterRecord s (record (.direct disp))) ∧
    exec (.movRegRmMemoryNoDisplacement w reg rm) s = .next (afterRecord s (record (.mem rm none))) ∧
    exec (.movRegRmMemoryByteDisplacement w reg rm disp) s = .next (afterRecord s (record (.mem rm (some disp)))) ∧
    exec (.movRegRmMemoryWordDisplacement w reg rm disp) s = .next (afterRecord s (record (.mem rm (some disp)))) ∧
    exec (.movRegRmRegisterDirect w reg rm) s = .next (afterRecord s (record (.reg (if w then .word else .byte) rm)))

/-- R142, R120, R169, R170: rows 11 to 15; the size keyword's flag is set exactly for memory. -/
def Obligations.MovRmImmEmitsRecord : Prop :=
  ∀ (w : Bool) (rm : Index) (disp imm : Word) (s : State) (start : Nat), s.acc.instrStart = some start →
    let record (dst : Operand) (sized : Bool) : DecodedInstruction :=
      { mnemonic := .mov, destinationOperand := dst, sourceOperand := .imm (if w then .word else .byte) imm sized,
        start := start, length := s.pos - start }
    exec (.movRmImmDirectAddress w disp imm) s = .next (afterRecord s (record (.direct disp) true)) ∧
    exec (.movRmImmMemoryNoDisplacement w rm imm) s = .next (afterRecord s (record (.mem rm none) true)) ∧
    exec (.movRmImmMemoryByteDisplacement w rm disp imm) s = .next (afterRecord s (record (.mem rm (some disp)) true)) ∧
    exec (.movRmImmMemoryWordDisplacement w rm disp imm) s = .next (afterRecord s (record (.mem rm (some disp)) true)) ∧
    exec (.movRmImmRegisterDirect w rm imm) s =
      .next (afterRecord s (record (.reg (if w then .word else .byte) rm) false))

/-- R143, R120, R170: row 17. -/
def Obligations.MovRegImmEmitsRecord : Prop :=
  ∀ (w : Bool) (reg : Index) (imm : Word) (s : State) (start : Nat), s.acc.instrStart = some start →
    exec (.movRegImm w reg imm) s = .next (afterRecord s
      { mnemonic := .mov, destinationOperand := .reg (if w then .word else .byte) reg,
        sourceOperand := .imm (if w then .word else .byte) imm false, start := start, length := s.pos - start })

/-- R145, R115, R196: row 16. Its effect is the entry into the fatal outcome. -/
def Obligations.InvalidRaisesOutcome : Prop :=
  ∀ (w : Bool) (b1 : Byte) (s : State) (start : Nat), s.acc.instrStart = some start →
    exec (.invalid w b1) s = .next
      { s with
        pos := s.pos + 1
        phase := .faulted
        err := some (.invalidFieldCombination b1 s.pos start)
        results := s.results ++ [.outcome (.invalidFieldCombination b1 s.pos start)]
        cur := some { request := .readByte, response := .byte b1 } }

/-- R144, R113, R196: row 18. Its effect is the entry into the fatal outcome, from every state. -/
def Obligations.UnrecognizedRaisesOutcome : Prop :=
  ∀ (b0 : Byte) (s : State),
    exec (.unrecognized b0) s = .next
      { s with
        pos := s.pos + 1
        phase := .faulted
        acc := { s.acc with opcodeFamily := some .unrecognized }
        err := some (.unrecognizedOpcode b0 s.pos)
        results := s.results ++ [.outcome (.unrecognizedOpcode b0 s.pos)]
        cur := some { request := .readByte, response := .byte b0 } }

/-! ### Frames -/

/-- R146, R120: what the sixteen MOV forms (the instructions with operands, rows 1 to 15 and 17) leave unchanged, and the two
things they do to the rest: one record more, a neutral accumulator. -/
def Obligations.MovLeavesTheRest : Prop :=
  ∀ (i : Instr) (s t : State), operandsOf i ≠ none → exec i s = .next t →
    (∀ a, Memory.read t.mem a = Memory.read s.mem a) ∧ t.mem = s.mem ∧ t.len = s.len ∧ t.pos = s.pos ∧ t.err = s.err ∧
    t.rst = s.rst ∧ t.phase = .awaitingOpcodeByte ∧ t.acc = DecodeState.neutral ∧ t.cur = none ∧
    ∃ record, t.results = s.results ++ [.instruction record]

/-- R196, R113, R115: what the two rejected rows (16 and 18) leave unchanged. `INVALID` writes no accumulator field,
`UNRECOGNIZED` only the family. -/
def Obligations.RejectionLeavesTheRest : Prop :=
  ∀ (i : Instr) (s t : State), operandsOf i = none → exec i s = .next t →
    (∀ a, Memory.read t.mem a = Memory.read s.mem a) ∧ t.mem = s.mem ∧ t.len = s.len ∧ t.rst = s.rst ∧
    t.pos = s.pos + 1 ∧ { t.acc with opcodeFamily := s.acc.opcodeFamily } = s.acc ∧
    (∀ w b, i = .invalid w b → t.acc = s.acc) ∧
    ∃ final, t.err = some final ∧ final.isFatal = true ∧ t.results = s.results ++ [.outcome final]

/-! ### Invariants and rules of the whole machine -/

/-- The invariant of a run is kept by every step. -/
def Obligations.InvariantIsKept : Prop :=
  ∀ s t : State, RunInv s → step s = .next t → RunInv t

/-- R122: under the invariant a step always answers a next state, so no fault of the model is ever met. -/
def Obligations.InvariantGivesProgress : Prop :=
  ∀ s : State, RunInv s → ∃ t, step s = .next t

/-- R52, R125, R146 (d): the records emitted so far cover the buffer from the entry point to the current instruction
without gap or overlap, and every step keeps this. -/
def Obligations.RecordsKeepTiling : Prop :=
  ∀ s t : State, RunInv s → RecordsTile s → step s = .next t → RecordsTile t

/-- R234, R197: a step emits at most one item and takes none back; a record only at completion, a final outcome only
with the entry into its terminal phase, nothing in a terminal phase. -/
def Obligations.AtMostOneItemPerStep : Prop :=
  ∀ s t : State, s.rst = false → step s = .next t →
    ∃ items : List ResultItem, t.results = s.results ++ items ∧ items.length ≤ 1 ∧
      (∀ record, ResultItem.instruction record ∈ items → s.phase = .complete ∧
        ∃ i, s.acc.gathered = .ok i ∧ operandsOf i = some (record.destinationOperand, record.sourceOperand)) ∧
      (∀ final, ResultItem.outcome final ∈ items → t.err = some final ∧ t.phase.isTerminal = true) ∧
      (s.phase.isTerminal = true → items = [] ∧ t.phase = s.phase)

/-- R195, R198, R119, R194: in which phase, and from which bytes, each outcome can arise; one byte may be left at a truncation only
where a field of two is pending. -/
def Obligations.OutcomesAriseOnlyThere : Prop :=
  ∀ (s t : State) (final : FinalOutcome), s.rst = false → step s = .next t → t.err = some final → s.err ≠ some final →
    (final = .endOfStream → s.phase = .awaitingOpcodeByte ∧ s.len ≤ s.pos) ∧
    (∀ offset start, final = .truncatedInstruction offset start →
      offset = s.pos ∧ s.acc.instrStart = some start ∧
      ((s.phase = .awaitingModeByte ∧ s.len ≤ s.pos) ∨
       (s.phase = .awaitingDisplacementOrImmediate ∧ s.len ≤ s.pos ∧
         (s.acc.pendingBytes.disp = .one ∨ (s.acc.pendingBytes.disp = .zero ∧ s.acc.pendingBytes.imm = .one))) ∨
       (s.phase = .awaitingDisplacementOrImmediate ∧ s.len < s.pos + 2 ∧
         (s.acc.pendingBytes.disp = .two ∨ (s.acc.pendingBytes.disp = .zero ∧ s.acc.pendingBytes.imm = .two))))) ∧
    (∀ b offset, final = .unrecognizedOpcode b offset →
      s.phase = .awaitingOpcodeByte ∧ offset = s.pos ∧ s.byteAt s.pos = some b ∧ isUnrecognizedByte b = true) ∧
    (∀ b offset start, final = .invalidFieldCombination b offset start →
      s.phase = .awaitingModeByte ∧ offset = s.pos ∧ s.byteAt s.pos = some b ∧ s.acc.instrStart = some start ∧
      s.acc.opcodeFamily = some .immediateToRegisterOrMemory ∧ b.toNat / 8 % 8 ≠ 0)

/-- R25, R199: an outcome once recorded stays, with everything else, until a reset. -/
def Obligations.OutcomeIsFinal : Prop :=
  ∀ (s t : State) (final : FinalOutcome), RunInv s → s.rst = false → s.err = some final → step s = .next t →
    t.err = some final ∧ t.phase = s.phase ∧ t.pos = s.pos ∧ t.results = s.results ∧ t.acc = s.acc

/-- R231: only the mode byte's transition writes the addressing mode (completion and reset clear it), that transition comes once
for an instruction, and the operand is built from the stored mode, not from `rmField` again: each mode from the fields its own
rule reads, whatever the others hold. -/
def Obligations.AddressingModeIsWrittenOnce : Prop :=
  (∀ s t : State, s.rst = false → step s = .next t →
    (s.phase ≠ .awaitingModeByte → s.phase ≠ .complete → t.acc.addressingMode = s.acc.addressingMode) ∧
    (s.phase = .complete → t.acc.addressingMode = none) ∧
    (t.phase = .awaitingModeByte → s.phase = .awaitingOpcodeByte)) ∧
  (∀ (a : DecodeState) (disp : Word), a.displacement = some disp → a.addressingMode = some .directAddress →
    a.rmForm = .ok (.directAddress disp)) ∧
  (∀ (a : DecodeState) (rm : Index), a.rmField = some rm →
    (a.addressingMode = some .memoryNoDisplacement → a.rmForm = .ok (.memoryNoDisplacement rm)) ∧
    (a.addressingMode = some .registerDirect → a.rmForm = .ok (.registerDirect rm))) ∧
  (∀ (a : DecodeState) (rm : Index) (disp : Word), a.rmField = some rm → a.displacement = some disp →
    (a.addressingMode = some .memoryByteDisplacement → a.rmForm = .ok (.memoryByteDisplacement rm disp)) ∧
    (a.addressingMode = some .memoryWordDisplacement → a.rmForm = .ok (.memoryWordDisplacement rm disp)))

/-- R223: the accumulator is neutral whenever a step leads to the phase between instructions, and the step that clears it for
the next instruction touches neither position nor outcome. -/
def Obligations.AccumulatorIsClearedBetweenInstructions : Prop :=
  (∀ s t : State, step s = .next t → t.phase = .awaitingOpcodeByte →
    (∀ f, validFlag t.acc f = false) ∧ t.acc.pendingBytes = PendingBytes.nothing ∧
    (s.rst = false → s.phase = .complete ∧ t.pos = s.pos ∧ t.err = s.err)) ∧
  (∀ f, validFlag State.reset.acc f = false) ∧ State.reset.acc.pendingBytes = PendingBytes.nothing

/-- R163, R146 (f): the two operands of an emitted record have one width. -/
def Obligations.EmittedOperandsShareWidth : Prop :=
  ∀ (s t : State) (record : DecodedInstruction), step s = .next t → t.results = s.results ++ [.instruction record] →
    ∀ w w', operandWidth record.destinationOperand = some w → operandWidth record.sourceOperand = some w' → w = w'

/-- R35, R235: what a run does from a state depends on the buffer, the position, the phase and the accumulator alone; neither
the items emitted before nor the recorded ports matter. -/
def Obligations.EarlierResultsDoNotMatter : Prop :=
  ∀ (n : Nat) (s u s' : State), u.mem = s.mem → u.len = s.len → u.pos = s.pos → u.phase = s.phase → u.acc = s.acc →
    s.rst = false → u.rst = false → stepMany n s = .next s' →
    ∃ (u' : State) (items : List ResultItem), stepMany n u = .next u' ∧
      u'.pos = s'.pos ∧ u'.phase = s'.phase ∧ u'.acc = s'.acc ∧
      s'.results = s.results ++ items ∧ u'.results = u.results ++ items

/-- R121, R124: from every state of the invariant the run reaches a terminal phase, in at most two steps for each byte
left and two more. -/
def Obligations.RunsEnd : Prop :=
  ∀ s : State, RunInv s → s.rst = false →
    ∃ n t, n ≤ 2 * (s.len - s.pos) + 2 ∧ stepMany n s = .next t ∧ t.phase.isTerminal = true

/-- R123, R124, R208: the run over a buffer ends within `LEN + LEN / 2 + 1` steps and has then emitted exactly the records of
the whole instructions in order and the final outcome that the encodings alone determine. -/
def Obligations.RunIsTheDecodingOfItsBytes : Prop :=
  ∀ bytes : List Byte, ∃ t, decodeAll bytes = .next t ∧ t.phase.isTerminal = true ∧
    t.results = itemsOf (bytes.length + 1) 0 bytes

/-! ### Beside the block -/

/-- R160. -/
def Obligations.ByteRegisterNamesAreCanonical : Prop :=
  ∀ i : Index, operandText (.reg .byte i) = (["al", "cl", "dl", "bl", "ah", "ch", "dh", "bh"] : List String).getD i.toNat ""

/-- R161, R162, R172, R173, R79 (D14, D16, D26; the tables' entries are the spec's general knowledge, log 12): the names of the 16-bit
registers, the text of every operand form and the line of a record. Displacements and immediates are printed signed, the direct
address unsigned, in decimal. -/
def Obligations.OperandsAndLinesReadAsWritten : Prop :=
  (∀ i : Index, operandText (.reg .word i) =
    (["ax", "cx", "dx", "bx", "sp", "bp", "si", "di"] : List String).getD i.toNat "") ∧
  (∀ rm : Index,
    let base := (["bx + si", "bx + di", "bp + si", "bp + di", "si", "di", "bp", "bx"] : List String).getD rm.toNat ""
    operandText (.mem rm none) = "[" ++ base ++ "]" ∧
    ∀ disp : Word, operandText (.mem rm (some disp)) = "[" ++ base ++ " + " ++ toString disp.toInt ++ "]") ∧
  (∀ addr : Word, operandText (.direct addr) = "[" ++ toString addr.toNat ++ "]") ∧
  (∀ value : Word,
    (∀ w, operandText (.imm w value false) = toString value.toInt) ∧
    operandText (.imm .byte value true) = "byte " ++ toString value.toInt ∧
    operandText (.imm .word value true) = "word " ++ toString value.toInt) ∧
  (∀ record : DecodedInstruction,
    lineOf record = "mov " ++ operandText record.destinationOperand ++ ", " ++ operandText record.sourceOperand)

/-- R163: `wide` selects the table for both register operands of an instruction, and no name occurs in both tables. -/
def Obligations.WidthSelectsTheRegisterTable : Prop :=
  (∀ i : Index, regName true i = reg16Table.getD i.toNat "" ∧ regName false i = reg8Table.getD i.toNat "") ∧
  (∀ (wide : Bool) (reg rm : Index) (d : Direction) (dst src : Operand),
    operandsOf ((RmForm.registerDirect rm).movRegister d wide reg) = some (dst, src) →
    (operandText dst = regName wide reg ∧ operandText src = regName wide rm) ∨
    (operandText dst = regName wide rm ∧ operandText src = regName wide reg)) ∧
  (∀ (i : Instr) (dst src : Operand) (w w' : Width), operandsOf i = some (dst, src) →
    operandWidth dst = some w → operandWidth src = some w' → w = w') ∧
  (∀ i j : Index, regName true i ≠ regName false j)

/-- R207: however the steps of several instances interleave, each ends where its own steps alone lead it. -/
def Obligations.InstancesAreIndependent : Prop :=
  ∀ (schedule : List Nat) (all after : List State), runSchedule schedule all = .next after →
    after.length = all.length ∧
    ∀ (k : Nat) (s : State), all[k]? = some s →
      ∃ t, after[k]? = some t ∧ stepMany (schedule.count k) s = .next t

/-- R80, R174: the text of a run has the two header lines and one line for each record; a final outcome adds none. -/
def Obligations.OutputHasOneLinePerRecord : Prop :=
  ∀ (records : List DecodedInstruction) (final : List FinalOutcome),
    outputLines (records.map ResultItem.instruction ++ final.map ResultItem.outcome) =
      ["bits 16", ""] ++ records.map lineOf

/-- R176 (general knowledge, G13; log 12): a memory operand denotes an offset, the sum of its registers and its displacement modulo
65536, given the run-time registers in table order; a direct address denotes itself. For a list of fewer than eight registers the missing ones
count 0, which is the model's (log 15). -/
def Obligations.MemoryOperandDenotesItsSum : Prop :=
  (∀ (regs : List Word) (rm : Index) (disp : Option Word), ∃ v : Word, denotedOffset regs (.mem rm disp) = some v ∧
    (rm.toNat < 4 → v.toNat =
      ((regs.getD (basePair rm.toNat).1 0).toNat + (regs.getD (basePair rm.toNat).2 0).toNat + (disp.getD 0).toNat) % 65536) ∧
    (4 ≤ rm.toNat → v.toNat = ((regs.getD (baseSingle rm.toNat) 0).toNat + (disp.getD 0).toNat) % 65536)) ∧
  (∀ (regs : List Word) (addr : Word), denotedOffset regs (.direct addr) = some addr)

/-- R36, R190 (D5, D18): the numbers of both tables, that the direction and the width are coded by their bits of the first byte, and
that the codes tell the values apart; the unused codes are no value. -/
def Obligations.CodesTellValuesApart : Prop :=
  (phaseCode .awaitingOpcodeByte = 0 ∧ phaseCode .awaitingModeByte = 1 ∧ phaseCode .awaitingDisplacementOrImmediate = 2 ∧
    phaseCode .complete = 3 ∧ phaseCode .done = 4 ∧ phaseCode .faulted = 5) ∧
  (familyCode .registerOrMemoryToRegister = 0 ∧ familyCode .immediateToRegisterOrMemory = 1 ∧
    familyCode .immediateToRegister = 2 ∧ familyCode .unrecognized = 3) ∧
  (directionCode .sourceIsRegister = 0 ∧ directionCode .destinationIsRegister = 1 ∧ wideCode false = 0 ∧ wideCode true = 1) ∧
  (addressingModeCode .memoryNoDisplacement = 0 ∧ addressingModeCode .memoryByteDisplacement = 1 ∧
    addressingModeCode .memoryWordDisplacement = 2 ∧ addressingModeCode .registerDirect = 3 ∧
    addressingModeCode .directAddress = 4) ∧
  (outcomeCode none = 0 ∧ outcomeCode (some .endOfStream) = 1 ∧
    (∀ offset start, outcomeCode (some (.truncatedInstruction offset start)) = 2) ∧
    (∀ b offset, outcomeCode (some (.unrecognizedOpcode b offset)) = 3) ∧
    ∀ b offset start, outcomeCode (some (.invalidFieldCombination b offset start)) = 4) ∧
  (∀ b0 : Byte,
    directionCode (dirBit b0) = b0.extractLsb' 1 1 ∧
    wideCode (widthBit .registerOrMemoryToRegister b0) = b0.extractLsb' 0 1 ∧
    wideCode (widthBit .immediateToRegisterOrMemory b0) = b0.extractLsb' 0 1 ∧
    wideCode (widthBit .immediateToRegister b0) = b0.extractLsb' 3 1) ∧
  (∀ p, phaseOfCode (phaseCode p) = some p) ∧ (∀ c, 6 ≤ c.toNat → phaseOfCode c = none) ∧
  (∀ am, addressingModeOfCode (addressingModeCode am) = some am) ∧ (∀ c, 5 ≤ c.toNat → addressingModeOfCode c = none) ∧
  (∀ f g, familyCode f = familyCode g → f = g) ∧
  (∀ d e, directionCode d = directionCode e → d = e) ∧
  (∀ v w, wideCode v = wideCode w → v = w) ∧
  (∀ e : Option FinalOutcome, outcomeCode e = 0 ↔ e = none) ∧
  (∀ e : FinalOutcome, outcomeCode (some e) = 1 ↔ e.isFatal = false)
end

