-- ==== Sys2Proof/Laws/Decode.lean ====
section
/-! SUPPORT. Small laws of the bit-field extractor and of the encoder's pieces. -/

namespace Sys2Proof

@[simp] theorem classify_rmRegByte (d : Direction) (w : Bool) :
    classify (rmRegByte d w) = .registerOrMemoryToRegister := by
  cases d <;> cases w <;> decide

@[simp] theorem classify_immRmByte (w : Bool) : classify (immRmByte w) = .immediateToRegisterOrMemory := by
  cases w <;> decide

@[simp] theorem classify_immRegByte (w : Bool) (reg : Index) : classify (immRegByte w reg) = .immediateToRegister := by
  revert w reg; decide

@[simp] theorem dirBit_rmRegByte (d : Direction) (w : Bool) : dirBit (rmRegByte d w) = d := by
  cases d <;> cases w <;> decide

@[simp] theorem widthBit_rmRegByte (d : Direction) (w : Bool) :
    widthBit .registerOrMemoryToRegister (rmRegByte d w) = w := by
  cases d <;> cases w <;> decide

@[simp] theorem widthBit_immRmByte (w : Bool) : widthBit .immediateToRegisterOrMemory (immRmByte w) = w := by
  cases w <;> decide

@[simp] theorem widthBit_immRegByte (w : Bool) (reg : Index) : widthBit .immediateToRegister (immRegByte w reg) = w := by
  revert w reg; decide

@[simp] theorem regOfOpcode_immRegByte (w : Bool) (reg : Index) : regOfOpcode (immRegByte w reg) = reg := by
  revert w reg; decide

@[simp] theorem modeBits_modeByteOf (mod : BitVec 2) (reg rm : Index) : modeBits (modeByteOf mod reg rm) = mod := by
  revert mod reg rm; decide +kernel

@[simp] theorem regBits_modeByteOf (mod : BitVec 2) (reg rm : Index) : regBits (modeByteOf mod reg rm) = reg := by
  revert mod reg rm; decide +kernel

@[simp] theorem rmBits_modeByteOf (mod : BitVec 2) (reg rm : Index) : rmBits (modeByteOf mod reg rm) = rm := by
  revert mod reg rm; decide +kernel

/-- The fields partition the mode byte. -/
theorem modeByteOf_bits (b1 : Byte) : modeByteOf (modeBits b1) (regBits b1) (rmBits b1) = b1 := by
  revert b1; decide +kernel

/-- The three recognised patterns and the bytes they give. -/
theorem rmRegByte_bits {b0 : Byte} (h : classify b0 = .registerOrMemoryToRegister) :
    rmRegByte (dirBit b0) (widthBit .registerOrMemoryToRegister b0) = b0 := by
  revert b0; decide +kernel

theorem immRmByte_bits {b0 : Byte} (h : classify b0 = .immediateToRegisterOrMemory) :
    immRmByte (widthBit .immediateToRegisterOrMemory b0) = b0 := by
  revert b0; decide +kernel

theorem immRegByte_bits {b0 : Byte} (h : classify b0 = .immediateToRegister) :
    immRegByte (widthBit .immediateToRegister b0) (regOfOpcode b0) = b0 := by
  revert b0; decide +kernel

/-- The classification and the ranges of R75 agree. -/
theorem classify_unrecognized (b0 : Byte) : classify b0 = .unrecognized ↔ isUnrecognizedByte b0 = true := by
  revert b0; decide +kernel

@[simp] theorem modeOf_zero_six : modeOf 0#2 6#3 = (.directAddress, .two) := rfl

theorem modeOf_zero {rm : Index} (h : rm ≠ 6#3) : modeOf 0#2 rm = (.memoryNoDisplacement, .zero) := by
  unfold modeOf
  rw [if_pos rfl, if_neg h]

@[simp] theorem modeOf_one (rm : Index) : modeOf 1#2 rm = (.memoryByteDisplacement, .one) := rfl

@[simp] theorem modeOf_two (rm : Index) : modeOf 2#2 rm = (.memoryWordDisplacement, .two) := rfl

@[simp] theorem modeOf_three (rm : Index) : modeOf 3#2 rm = (.registerDirect, .zero) := rfl

/-- The value of a little-endian word (R44): `hi * 256 + lo`. -/
theorem toNat_wordOf (lo hi : Byte) : (wordOf lo hi).toNat = hi.toNat * 256 + lo.toNat := by
  rw [wordOf, BitVec.toNat_append, ← Nat.shiftLeft_add_eq_or_of_lt lo.isLt, Nat.shiftLeft_eq]

theorem toNat_lowByte (v : Word) : (lowByte v).toNat = v.toNat % 256 := by
  simp [lowByte]

theorem toNat_highByte (v : Word) : (highByte v).toNat = v.toNat / 256 := by
  have := v.isLt
  simp only [highByte, BitVec.extractLsb'_toNat, Nat.shiftRight_eq_div_pow]
  omega

/-- A word is its two bytes. -/
@[simp] theorem wordOf_bytes (v : Word) : wordOf (lowByte v) (highByte v) = v := by
  apply BitVec.eq_of_toNat_eq
  rw [toNat_wordOf, toNat_lowByte, toNat_highByte]
  omega

@[simp] theorem lowByte_wordOf (lo hi : Byte) : lowByte (wordOf lo hi) = lo := by
  apply BitVec.eq_of_toNat_eq
  have := lo.isLt
  rw [toNat_lowByte, toNat_wordOf]
  omega

@[simp] theorem highByte_wordOf (lo hi : Byte) : highByte (wordOf lo hi) = hi := by
  apply BitVec.eq_of_toNat_eq
  have := lo.isLt
  rw [toNat_highByte, toNat_wordOf]
  omega

@[simp] theorem lowByte_fromByte (b : Byte) : lowByte (fromByte b) = b := by
  revert b; decide +kernel

/-- Sign extension gives the values -128 to 127. -/
@[simp] theorem isSignedByte_fromByte (b : Byte) : isSignedByte (fromByte b) = true := by
  revert b; decide +kernel

/-- A value of -128 to 127 is the sign extension of its low-order byte. -/
theorem fromByte_lowByte {v : Word} (h : isSignedByte v = true) : fromByte (lowByte v) = v := by
  simp only [isSignedByte, decide_eq_true_eq] at h
  unfold fromByte lowByte
  apply BitVec.eq_of_toInt_eq
  rw [BitVec.toInt_signExtend_of_le (by omega)]
  rw [BitVec.toInt_eq_toNat_bmod] at h ⊢
  rw [BitVec.toInt_eq_toNat_bmod]
  simp only [BitVec.extractLsb'_toNat, Nat.shiftRight_zero]
  have hv := v.isLt
  simp only [Int.bmod_def] at h ⊢
  omega

/-! ### The pieces of the encoder, taken back -/

@[simp] theorem takeField_zero (bytes : List Byte) : takeField .zero bytes = some (none, bytes) := by
  cases bytes <;> rfl

theorem takeField_two (v : Word) (rest : List Byte) : takeField .two (wordBytes v ++ rest) = some (some v, rest) := by
  simp [takeField, wordBytes, fromWord]

theorem takeField_one {v : Word} (h : isSignedByte v = true) (rest : List Byte) :
    takeField .one (lowByte v :: rest) = some (some v, rest) := by
  simp [takeField, fromByte_lowByte h]

/-- An immediate is read back (R65, R71). -/
theorem takeField_imm {w : Bool} {imm : Word} (h : immediateFits w imm = true) (f : Family)
    (hf : f = .immediateToRegisterOrMemory ∨ f = .immediateToRegister) (rest : List Byte) :
    takeField (nImm f w) (encodeImm w imm ++ rest) = some (some imm, rest) := by
  cases w
  · have hs : isSignedByte imm = true := by simpa [immediateFits] using h
    rcases hf with rfl | rfl <;> exact takeField_one hs rest
  · rcases hf with rfl | rfl <;> exact takeField_two imm rest

/-- What an r/m operand needs to be encodable (R64, R71). -/
def RmForm.fits : RmForm → Bool
  | .directAddress _ => true
  | .memoryNoDisplacement rm => rm != 6#3
  | .memoryByteDisplacement _ disp => isSignedByte disp
  | .memoryWordDisplacement _ _ => true
  | .registerDirect _ => true

@[simp] theorem length_encodeRm (reg : Index) (rm : RmForm) : (encodeRm reg rm).length = rm.length := by cases rm <;> rfl

@[simp] theorem length_encodeImm (w : Bool) (imm : Word) : (encodeImm w imm).length = immLength w := by cases w <;> rfl

end Sys2Proof
end

