-- ==== Sys2Proof/Laws/Memory.lean ====
section
/-! SUPPORT. The laws of the buffer's list of cells: a read after a write, the canonical form kept by every operation, and what
a loaded buffer holds. -/

namespace Sys2Proof.Machine

@[simp] theorem Memory.read_nil (a : Nat) : Memory.read [] a = Config.unlistedByte := rfl

theorem Memory.read_cons (c : Host.Cell) (m : List Host.Cell) (a : Nat) :
    Memory.read (c :: m) a = if c.1 = a then c.2 else Memory.read m a := rfl

/-- Below the first offset nothing is listed. -/
theorem Memory.read_below {m : List Host.Cell} {low a : Nat} (h : Memory.wfFrom low m = true) (ha : a < low) :
    Memory.read m a = Config.unlistedByte := by
  induction m generalizing low with
  | nil => rfl
  | cons c m ih =>
    simp only [Memory.wfFrom, Bool.and_eq_true, decide_eq_true_eq] at h
    rw [Memory.read_cons, if_neg (by omega)]
    exact ih h.2 (by omega)

/-- A lower start is a weaker canonical form. -/
theorem Memory.wfFrom_mono {m : List Host.Cell} {low low' : Nat} (hl : low' ≤ low) (h : Memory.wfFrom low m = true) :
    Memory.wfFrom low' m = true := by
  cases m with
  | nil => rfl
  | cons c m =>
    simp only [Memory.wfFrom, Bool.and_eq_true, decide_eq_true_eq] at h ⊢
    exact ⟨⟨by omega, h.1.2⟩, h.2⟩

/-- Leaving a cell with the unlisted byte out keeps the canonical form. -/
theorem Memory.consCell_wf {m : List Host.Cell} {low a : Nat} (v : Byte) (hl : low ≤ a)
    (h : Memory.wfFrom (a + 1) m = true) : Memory.wfFrom low (Memory.consCell a v m) = true := by
  unfold Memory.consCell
  split
  · exact Memory.wfFrom_mono (by omega) h
  · simp [Memory.wfFrom, *]

theorem Memory.consCell_read {m : List Host.Cell} {a : Nat} (v : Byte) (x : Nat)
    (h : Memory.wfFrom (a + 1) m = true) :
    Memory.read (Memory.consCell a v m) x = if a = x then v else Memory.read m x := by
  unfold Memory.consCell
  split
  · split
    · subst_vars; exact Memory.read_below h (by omega)
    · rfl
  · rfl

/-- A write keeps the canonical form. -/
theorem Memory.write_wf {m : List Host.Cell} {low : Nat} (a : Nat) (v : Byte) (hl : low ≤ a)
    (h : Memory.wfFrom low m = true) : Memory.wfFrom low (Memory.write m a v) = true := by
  induction m generalizing low with
  | nil => exact Memory.consCell_wf v hl rfl
  | cons c m ih =>
    have hc := h
    simp only [Memory.wfFrom, Bool.and_eq_true, decide_eq_true_eq] at hc
    simp only [Memory.write]
    split
    · exact Memory.consCell_wf v hl (Memory.wfFrom_mono (low := c.1) (by omega) (by simp [Memory.wfFrom, hc]))
    · split
      · subst_vars; exact Memory.consCell_wf v hl hc.2
      · simp only [Memory.wfFrom, Bool.and_eq_true, decide_eq_true_eq]
        exact ⟨hc.1, ih (by omega) hc.2⟩

/-- A read after a write: the byte written there, every other byte as before. -/
theorem Memory.read_write {m : List Host.Cell} {low : Nat} (a : Nat) (v : Byte) (x : Nat)
    (h : Memory.wfFrom low m = true) :
    Memory.read (Memory.write m a v) x = if a = x then v else Memory.read m x := by
  induction m generalizing low with
  | nil => exact Memory.consCell_read v x rfl
  | cons c m ih =>
    have hc := h
    simp only [Memory.wfFrom, Bool.and_eq_true, decide_eq_true_eq] at hc
    simp only [Memory.write]
    split
    · exact Memory.consCell_read v x (Memory.wfFrom_mono (low := c.1) (by omega) (by simp [Memory.wfFrom, hc]))
    · split
      · subst_vars
        rw [Memory.consCell_read v x hc.2, Memory.read_cons]
        split <;> rfl
      · rw [Memory.read_cons, Memory.read_cons, ih hc.2]
        split <;> split <;> first | rfl | omega

theorem Memory.writeBytes_wf {m : List Host.Cell} (a : Nat) (bytes : List Byte) (h : Memory.wf m = true) :
    Memory.wf (Memory.writeBytes m a bytes) = true := by
  induction bytes generalizing m a with
  | nil => exact h
  | cons b bytes ih => exact ih (a + 1) (Memory.write_wf a b (Nat.zero_le a) h)

/-- What some consecutive writes leave: the bytes written from the first offset on, every other byte as before. -/
theorem Memory.read_writeBytes {m : List Host.Cell} (a : Nat) (bytes : List Byte) (x : Nat) (h : Memory.wf m = true) :
    Memory.read (Memory.writeBytes m a bytes) x =
      if a ≤ x ∧ x < a + bytes.length then bytes.getD (x - a) Config.unlistedByte else Memory.read m x := by
  induction bytes generalizing m a with
  | nil =>
    simp only [Memory.writeBytes, List.length_nil]
    rw [if_neg (by omega)]
  | cons b bytes ih =>
    simp only [Memory.writeBytes]
    rw [ih (a + 1) (Memory.write_wf a b (Nat.zero_le a) h), Memory.read_write a b x h]
    by_cases hx : a = x
    · subst hx; simp
    · by_cases hin : a + 1 ≤ x ∧ x < a + 1 + bytes.length
      · rw [if_pos hin, if_pos (by simp only [List.length_cons]; omega)]
        rw [show x - a = (x - (a + 1)) + 1 by omega]
        simp
      · rw [if_neg hin, if_neg hx, if_neg (by simp only [List.length_cons]; omega)]

/-- Every offset listed after a write was listed before or is the one written. -/
theorem Memory.write_offsets {m : List Host.Cell} {a : Nat} {v : Byte} {c : Host.Cell}
    (h : c ∈ Memory.write m a v) : c.1 = a ∨ c ∈ m := by
  induction m with
  | nil =>
    simp only [Memory.write, Memory.consCell] at h
    split at h <;> simp_all
  | cons d m ih =>
    simp only [Memory.write, Memory.consCell] at h
    split at h
    · split at h
      · exact Or.inr h
      · rcases List.mem_cons.1 h with rfl | h
        · exact Or.inl rfl
        · exact Or.inr h
    · split at h
      · split at h
        · exact Or.inr (List.mem_cons_of_mem _ h)
        · rcases List.mem_cons.1 h with rfl | h
          · exact Or.inl rfl
          · exact Or.inr (List.mem_cons_of_mem _ h)
      · rcases List.mem_cons.1 h with rfl | h
        · exact Or.inr (List.mem_cons_self ..)
        · exact (ih h).imp_right (List.mem_cons_of_mem _)

theorem Memory.writeBytes_offsets {m : List Host.Cell} {a : Nat} {bytes : List Byte} {c : Host.Cell}
    (h : c ∈ Memory.writeBytes m a bytes) : (a ≤ c.1 ∧ c.1 < a + bytes.length) ∨ c ∈ m := by
  induction bytes generalizing m a with
  | nil => exact Or.inr h
  | cons b bytes ih =>
    simp only [Memory.writeBytes] at h
    simp only [List.length_cons]
    rcases ih h with h | h
    · exact Or.inl (by omega)
    · rcases Memory.write_offsets h with h | h
      · exact Or.inl (by omega)
      · exact Or.inr h

@[simp] theorem Memory.length_readBytes (m : List Host.Cell) (a n : Nat) : (Memory.readBytes m a n).length = n := by
  induction n generalizing a with
  | zero => rfl
  | succ n ih => simp [Memory.readBytes, ih]

/-- The first of the bytes from an offset on is the byte there, and the rest are the bytes from the next offset on. -/
theorem bytesFrom_lt {s : State} {a : Nat} (h : a < s.len) :
    s.bytesFrom a = Memory.read s.mem a :: s.bytesFrom (a + 1) := by
  unfold State.bytesFrom
  rw [show s.len - a = (s.len - (a + 1)) + 1 by omega]
  rfl

theorem bytesFrom_end {s : State} {a : Nat} (h : s.len ≤ a) : s.bytesFrom a = [] := by
  unfold State.bytesFrom
  rw [show s.len - a = 0 by omega]
  rfl

/-- The reset state's buffer is in canonical form. -/
theorem reset_memory_wf : Memory.wf State.reset.mem = true := rfl

/-- A buffer the host loads is in canonical form. -/
theorem bufferOf_wf (bytes : List Byte) : Memory.wf (bufferOf bytes) = true :=
  Memory.writeBytes_wf 0 bytes rfl

/-- Placing an instruction keeps the canonical form. -/
theorem placeInstruction_wf (bytes : List Byte) (s : State) (h : Memory.wf s.mem = true) :
    Memory.wf (placeInstruction bytes s).mem = true :=
  Memory.writeBytes_wf s.pos bytes h

end Sys2Proof.Machine
end

