-- ==== Sys2Proof/Laws/State.lean ====
section
/-! SUPPORT. One lemma per field per update of the state, each true by unfolding, so that no proof unfolds a record update. -/

namespace Sys2Proof.Machine

/-! ### setCursor -/

@[simp] theorem setCursor_mem (request : CursorRequest) (response : CursorResponse) (s : State) : (setCursor request response s).mem = s.mem := rfl
@[simp] theorem setCursor_len (request : CursorRequest) (response : CursorResponse) (s : State) : (setCursor request response s).len = s.len := rfl
@[simp] theorem setCursor_pos (request : CursorRequest) (response : CursorResponse) (s : State) : (setCursor request response s).pos = s.pos := rfl
@[simp] theorem setCursor_phase (request : CursorRequest) (response : CursorResponse) (s : State) : (setCursor request response s).phase = s.phase := rfl
@[simp] theorem setCursor_acc (request : CursorRequest) (response : CursorResponse) (s : State) : (setCursor request response s).acc = s.acc := rfl
@[simp] theorem setCursor_err (request : CursorRequest) (response : CursorResponse) (s : State) : (setCursor request response s).err = s.err := rfl
@[simp] theorem setCursor_results (request : CursorRequest) (response : CursorResponse) (s : State) : (setCursor request response s).results = s.results := rfl
@[simp] theorem setCursor_rst (request : CursorRequest) (response : CursorResponse) (s : State) : (setCursor request response s).rst = s.rst := rfl
@[simp] theorem setCursor_cur (request : CursorRequest) (response : CursorResponse) (s : State) : (setCursor request response s).cur = some { request := request, response := response } := rfl

/-! ### idleCursor -/

@[simp] theorem idleCursor_mem (s : State) : (idleCursor s).mem = s.mem := rfl
@[simp] theorem idleCursor_len (s : State) : (idleCursor s).len = s.len := rfl
@[simp] theorem idleCursor_pos (s : State) : (idleCursor s).pos = s.pos := rfl
@[simp] theorem idleCursor_phase (s : State) : (idleCursor s).phase = s.phase := rfl
@[simp] theorem idleCursor_acc (s : State) : (idleCursor s).acc = s.acc := rfl
@[simp] theorem idleCursor_err (s : State) : (idleCursor s).err = s.err := rfl
@[simp] theorem idleCursor_results (s : State) : (idleCursor s).results = s.results := rfl
@[simp] theorem idleCursor_rst (s : State) : (idleCursor s).rst = s.rst := rfl
@[simp] theorem idleCursor_cur (s : State) : (idleCursor s).cur = none := rfl

/-! ### consumeByte -/

@[simp] theorem consumeByte_mem (b : Byte) (s : State) : (consumeByte b s).mem = s.mem := rfl
@[simp] theorem consumeByte_len (b : Byte) (s : State) : (consumeByte b s).len = s.len := rfl
@[simp] theorem consumeByte_pos (b : Byte) (s : State) : (consumeByte b s).pos = s.pos + 1 := rfl
@[simp] theorem consumeByte_phase (b : Byte) (s : State) : (consumeByte b s).phase = s.phase := rfl
@[simp] theorem consumeByte_acc (b : Byte) (s : State) : (consumeByte b s).acc = s.acc := rfl
@[simp] theorem consumeByte_err (b : Byte) (s : State) : (consumeByte b s).err = s.err := rfl
@[simp] theorem consumeByte_results (b : Byte) (s : State) : (consumeByte b s).results = s.results := rfl
@[simp] theorem consumeByte_rst (b : Byte) (s : State) : (consumeByte b s).rst = s.rst := rfl
@[simp] theorem consumeByte_cur (b : Byte) (s : State) : (consumeByte b s).cur = some { request := .readByte, response := .byte b } := rfl

/-! ### consumeWord -/

@[simp] theorem consumeWord_mem (v : Word) (s : State) : (consumeWord v s).mem = s.mem := rfl
@[simp] theorem consumeWord_len (v : Word) (s : State) : (consumeWord v s).len = s.len := rfl
@[simp] theorem consumeWord_pos (v : Word) (s : State) : (consumeWord v s).pos = s.pos + 2 := rfl
@[simp] theorem consumeWord_phase (v : Word) (s : State) : (consumeWord v s).phase = s.phase := rfl
@[simp] theorem consumeWord_acc (v : Word) (s : State) : (consumeWord v s).acc = s.acc := rfl
@[simp] theorem consumeWord_err (v : Word) (s : State) : (consumeWord v s).err = s.err := rfl
@[simp] theorem consumeWord_results (v : Word) (s : State) : (consumeWord v s).results = s.results := rfl
@[simp] theorem consumeWord_rst (v : Word) (s : State) : (consumeWord v s).rst = s.rst := rfl
@[simp] theorem consumeWord_cur (v : Word) (s : State) : (consumeWord v s).cur = some { request := .readWord, response := .word v } := rfl

/-! ### emit -/

@[simp] theorem emit_mem (item : ResultItem) (s : State) : (emit item s).mem = s.mem := rfl
@[simp] theorem emit_len (item : ResultItem) (s : State) : (emit item s).len = s.len := rfl
@[simp] theorem emit_pos (item : ResultItem) (s : State) : (emit item s).pos = s.pos := rfl
@[simp] theorem emit_phase (item : ResultItem) (s : State) : (emit item s).phase = s.phase := rfl
@[simp] theorem emit_acc (item : ResultItem) (s : State) : (emit item s).acc = s.acc := rfl
@[simp] theorem emit_err (item : ResultItem) (s : State) : (emit item s).err = s.err := rfl
@[simp] theorem emit_results (item : ResultItem) (s : State) : (emit item s).results = s.results ++ [item] := rfl
@[simp] theorem emit_rst (item : ResultItem) (s : State) : (emit item s).rst = s.rst := rfl
@[simp] theorem emit_cur (item : ResultItem) (s : State) : (emit item s).cur = s.cur := rfl

/-! ### raise -/

@[simp] theorem raise_mem (final : FinalOutcome) (s : State) : (raise final s).mem = s.mem := rfl
@[simp] theorem raise_len (final : FinalOutcome) (s : State) : (raise final s).len = s.len := rfl
@[simp] theorem raise_pos (final : FinalOutcome) (s : State) : (raise final s).pos = s.pos := rfl
@[simp] theorem raise_phase (final : FinalOutcome) (s : State) : (raise final s).phase = .faulted := rfl
@[simp] theorem raise_acc (final : FinalOutcome) (s : State) : (raise final s).acc = s.acc := rfl
@[simp] theorem raise_err (final : FinalOutcome) (s : State) : (raise final s).err = some final := rfl
@[simp] theorem raise_results (final : FinalOutcome) (s : State) : (raise final s).results = s.results ++ [.outcome final] := rfl
@[simp] theorem raise_rst (final : FinalOutcome) (s : State) : (raise final s).rst = s.rst := rfl
@[simp] theorem raise_cur (final : FinalOutcome) (s : State) : (raise final s).cur = s.cur := rfl

/-! ### endStream -/

@[simp] theorem endStream_mem (s : State) : (endStream s).mem = s.mem := rfl
@[simp] theorem endStream_len (s : State) : (endStream s).len = s.len := rfl
@[simp] theorem endStream_pos (s : State) : (endStream s).pos = s.pos := rfl
@[simp] theorem endStream_phase (s : State) : (endStream s).phase = .done := rfl
@[simp] theorem endStream_acc (s : State) : (endStream s).acc = s.acc := rfl
@[simp] theorem endStream_err (s : State) : (endStream s).err = some .endOfStream := rfl
@[simp] theorem endStream_results (s : State) : (endStream s).results = s.results ++ [.outcome .endOfStream] := rfl
@[simp] theorem endStream_rst (s : State) : (endStream s).rst = s.rst := rfl
@[simp] theorem endStream_cur (s : State) : (endStream s).cur = s.cur := rfl

/-! ### externalReset -/

@[simp] theorem externalReset_mem (s : State) : (externalReset s).mem = s.mem := rfl
@[simp] theorem externalReset_len (s : State) : (externalReset s).len = s.len := rfl
@[simp] theorem externalReset_pos (s : State) : (externalReset s).pos = Config.entryPoint := rfl
@[simp] theorem externalReset_phase (s : State) : (externalReset s).phase = .awaitingOpcodeByte := rfl
@[simp] theorem externalReset_acc (s : State) : (externalReset s).acc = DecodeState.neutral := rfl
@[simp] theorem externalReset_err (s : State) : (externalReset s).err = none := rfl
@[simp] theorem externalReset_results (s : State) : (externalReset s).results = [] := rfl
@[simp] theorem externalReset_rst (s : State) : (externalReset s).rst = false := rfl
@[simp] theorem externalReset_cur (s : State) : (externalReset s).cur = none := rfl

/-! ### assertReset -/

@[simp] theorem assertReset_mem (s : State) : (assertReset s).mem = s.mem := rfl
@[simp] theorem assertReset_len (s : State) : (assertReset s).len = s.len := rfl
@[simp] theorem assertReset_pos (s : State) : (assertReset s).pos = s.pos := rfl
@[simp] theorem assertReset_phase (s : State) : (assertReset s).phase = s.phase := rfl
@[simp] theorem assertReset_acc (s : State) : (assertReset s).acc = s.acc := rfl
@[simp] theorem assertReset_err (s : State) : (assertReset s).err = s.err := rfl
@[simp] theorem assertReset_results (s : State) : (assertReset s).results = s.results := rfl
@[simp] theorem assertReset_rst (s : State) : (assertReset s).rst = true := rfl
@[simp] theorem assertReset_cur (s : State) : (assertReset s).cur = s.cur := rfl

/-! ### modeByte -/

@[simp] theorem modeByte_mem (f : Family) (wide : Bool) (b1 : Byte) (s : State) : (modeByte f wide b1 s).mem = s.mem := rfl
@[simp] theorem modeByte_len (f : Family) (wide : Bool) (b1 : Byte) (s : State) : (modeByte f wide b1 s).len = s.len := rfl
@[simp] theorem modeByte_pos (f : Family) (wide : Bool) (b1 : Byte) (s : State) : (modeByte f wide b1 s).pos = s.pos := rfl
@[simp] theorem modeByte_phase (f : Family) (wide : Bool) (b1 : Byte) (s : State) : (modeByte f wide b1 s).phase = gatheringPhase (modeOf (modeBits b1) (rmBits b1)).2 (nImm f wide) := rfl
@[simp] theorem modeByte_err (f : Family) (wide : Bool) (b1 : Byte) (s : State) : (modeByte f wide b1 s).err = s.err := rfl
@[simp] theorem modeByte_results (f : Family) (wide : Bool) (b1 : Byte) (s : State) : (modeByte f wide b1 s).results = s.results := rfl
@[simp] theorem modeByte_rst (f : Family) (wide : Bool) (b1 : Byte) (s : State) : (modeByte f wide b1 s).rst = s.rst := rfl
@[simp] theorem modeByte_cur (f : Family) (wide : Bool) (b1 : Byte) (s : State) : (modeByte f wide b1 s).cur = s.cur := rfl

/-! ### storeDisplacement -/

@[simp] theorem storeDisplacement_mem (v : Word) (s : State) : (storeDisplacement v s).mem = s.mem := rfl
@[simp] theorem storeDisplacement_len (v : Word) (s : State) : (storeDisplacement v s).len = s.len := rfl
@[simp] theorem storeDisplacement_pos (v : Word) (s : State) : (storeDisplacement v s).pos = s.pos := rfl
@[simp] theorem storeDisplacement_phase (v : Word) (s : State) : (storeDisplacement v s).phase = gatheringPhase .zero s.acc.pendingBytes.imm := rfl
@[simp] theorem storeDisplacement_err (v : Word) (s : State) : (storeDisplacement v s).err = s.err := rfl
@[simp] theorem storeDisplacement_results (v : Word) (s : State) : (storeDisplacement v s).results = s.results := rfl
@[simp] theorem storeDisplacement_rst (v : Word) (s : State) : (storeDisplacement v s).rst = s.rst := rfl
@[simp] theorem storeDisplacement_cur (v : Word) (s : State) : (storeDisplacement v s).cur = s.cur := rfl

/-! ### storeImmediate -/

@[simp] theorem storeImmediate_mem (v : Word) (s : State) : (storeImmediate v s).mem = s.mem := rfl
@[simp] theorem storeImmediate_len (v : Word) (s : State) : (storeImmediate v s).len = s.len := rfl
@[simp] theorem storeImmediate_pos (v : Word) (s : State) : (storeImmediate v s).pos = s.pos := rfl
@[simp] theorem storeImmediate_phase (v : Word) (s : State) : (storeImmediate v s).phase = .complete := rfl
@[simp] theorem storeImmediate_err (v : Word) (s : State) : (storeImmediate v s).err = s.err := rfl
@[simp] theorem storeImmediate_results (v : Word) (s : State) : (storeImmediate v s).results = s.results := rfl
@[simp] theorem storeImmediate_rst (v : Word) (s : State) : (storeImmediate v s).rst = s.rst := rfl
@[simp] theorem storeImmediate_cur (v : Word) (s : State) : (storeImmediate v s).cur = s.cur := rfl

/-! ### opcodeByte -/

@[simp] theorem opcodeByte_mem (f : Family) (b0 : Byte) (start : Nat) (s : State) :
    (opcodeByte f b0 start s).mem = s.mem := by cases f <;> rfl
@[simp] theorem opcodeByte_len (f : Family) (b0 : Byte) (start : Nat) (s : State) :
    (opcodeByte f b0 start s).len = s.len := by cases f <;> rfl
@[simp] theorem opcodeByte_pos (f : Family) (b0 : Byte) (start : Nat) (s : State) :
    (opcodeByte f b0 start s).pos = s.pos := by cases f <;> rfl
@[simp] theorem opcodeByte_err (f : Family) (b0 : Byte) (start : Nat) (s : State) :
    (opcodeByte f b0 start s).err = s.err := by cases f <;> rfl
@[simp] theorem opcodeByte_results (f : Family) (b0 : Byte) (start : Nat) (s : State) :
    (opcodeByte f b0 start s).results = s.results := by cases f <;> rfl
@[simp] theorem opcodeByte_rst (f : Family) (b0 : Byte) (start : Nat) (s : State) :
    (opcodeByte f b0 start s).rst = s.rst := by cases f <;> rfl
@[simp] theorem opcodeByte_cur (f : Family) (b0 : Byte) (start : Nat) (s : State) :
    (opcodeByte f b0 start s).cur = s.cur := by cases f <;> rfl

end Sys2Proof.Machine
end

