-- ==== Sys2Proof/Laws/Ops.lean ====
section
/-! SUPPORT. One lemma per shared operation: what it answers, and when. -/

namespace Sys2Proof.Machine

theorem needField_ok {α : Type} {f : AccField} {content : Option α} {v : α} :
    needField f content = .ok v ↔ content = some v := by
  cases content <;> simp [needField]

@[simp] theorem needField_some {α : Type} (f : AccField) (v : α) : needField f (some v) = .ok v := rfl

@[simp] theorem needField_none {α : Type} (f : AccField) : needField f (none : Option α) = .error (.unsetField f) := rfl

/-! ### The cursor -/

theorem readByte_lt {s : State} (h : s.pos < s.len) :
    readByte s = (some (Memory.read s.mem s.pos), consumeByte (Memory.read s.mem s.pos) s) := if_pos h

theorem readByte_end {s : State} (h : ¬ s.pos < s.len) : readByte s = (none, setCursor .readByte .exhausted s) := if_neg h

theorem readWord_lt {s : State} (h : 2 ≤ s.len - s.pos) :
    readWord s = (some (wordAtPos s), consumeWord (wordAtPos s) s) := if_pos h

theorem readWord_end {s : State} (h : ¬ 2 ≤ s.len - s.pos) : readWord s = (none, setCursor .readWord .exhausted s) := if_neg h

/-- The bytes of a field: two or one. -/
def fieldBytes (two : Bool) : Nat := if two then 2 else 1

/-- The value of a field at the position. -/
def fieldAtPos (two : Bool) (s : State) : Word :=
  if two then fromWord (wordAtPos s) else fromByte (Memory.read s.mem s.pos)

/-- The state after the field at the position is delivered. -/
def consumeField (two : Bool) (s : State) : State :=
  if two then consumeWord (wordAtPos s) s else consumeByte (Memory.read s.mem s.pos) s

/-- The state after the read of a field failed. -/
def failField (two : Bool) (s : State) : State :=
  setCursor (if two then .readWord else .readByte) .exhausted s

theorem readSigned_lt {two : Bool} {s : State} (h : fieldBytes two ≤ s.len - s.pos) :
    readSigned two s = (some (fieldAtPos two s), consumeField two s) := by
  cases two
  · have hp : s.pos < s.len := by simp only [fieldBytes, Bool.false_eq_true, if_false] at h; omega
    simp [readSigned, readByte_lt hp, fieldAtPos, consumeField]
  · simp [readSigned, readWord_lt (s := s) (by simpa [fieldBytes] using h), fieldAtPos, consumeField]

theorem readSigned_end {two : Bool} {s : State} (h : ¬ fieldBytes two ≤ s.len - s.pos) :
    readSigned two s = (none, failField two s) := by
  cases two
  · have hp : ¬ s.pos < s.len := by simp only [fieldBytes, Bool.false_eq_true, if_false] at h; omega
    simp [readSigned, readByte_end hp, failField]
  · have hp : ¬ 2 ≤ s.len - s.pos := by simpa [fieldBytes] using h
    simp [readSigned, readWord_end hp, failField]

/-! ### Outcomes and completion -/

theorem truncate_some {s : State} {start : Nat} (h : s.acc.instrStart = some start) :
    truncate s = .ok (raise (.truncatedInstruction s.pos start) s) := by simp [truncate, h]

theorem truncate_ok {s t : State} (h : truncate s = .ok t) :
    ∃ start, s.acc.instrStart = some start ∧ t = raise (.truncatedInstruction s.pos start) s := by
  cases hs : s.acc.instrStart with
  | none => simp [truncate, hs] at h
  | some start => simp only [truncate, hs, needField_some, Except.ok.injEq] at h; exact ⟨start, rfl, h.symm⟩

/-- The record that completion emits. -/
def completedRecord (operands : Operand × Operand) (start : Nat) (s : State) : DecodedInstruction :=
  { mnemonic := .mov, destinationOperand := operands.1, sourceOperand := operands.2, start := start, length := s.pos - start }

/-- The state that completion leaves. -/
def completedState (operands : Operand × Operand) (start : Nat) (s : State) : State :=
  idleCursor (emit (.instruction (completedRecord operands start s))
    { s with acc := DecodeState.neutral, phase := .awaitingOpcodeByte })

/-- What completion answers: a next state exactly when the instruction's start is known. -/
theorem complete_next {operands : Operand × Operand} {s t : State} :
    complete operands s = .next t ↔ ∃ start, s.acc.instrStart = some start ∧ t = completedState operands start s := by
  cases hs : s.acc.instrStart with
  | none => simp [complete, hs]
  | some start =>
    simp only [complete, hs, needField_some, Host.Outcome.next.injEq, Option.some.injEq, exists_eq_left']
    exact ⟨fun h => h.symm, fun h => h.symm⟩

theorem complete_some {operands : Operand × Operand} {s : State} {start : Nat} (h : s.acc.instrStart = some start) :
    complete operands s = .next (completedState operands start s) := complete_next.2 ⟨start, h, rfl⟩

theorem complete_not_refused {operands : Operand × Operand} {s : State} {r : Refusal} : complete operands s ≠ .refused r := by
  unfold complete
  split <;> simp

/-! ### The instruction meanings -/

/-- A MOV's meaning is the completion of its operands. -/
theorem exec_of_operands {i : Instr} {operands : Operand × Operand} (h : operandsOf i = some operands) (s : State) :
    exec i s = complete operands s := by
  cases i <;> simp only [operandsOf, Option.some.injEq, reduceCtorEq] at h <;> subst h <;> rfl

/-- Every instruction is a MOV with its operands, or one of the two rejected rows. -/
theorem instr_cases (i : Instr) :
    (∃ operands, operandsOf i = some operands) ∨ (∃ w b, i = .invalid w b) ∨ (∃ b, i = .unrecognized b) := by
  cases i <;> first
    | exact Or.inl ⟨_, rfl⟩
    | exact Or.inr (Or.inl ⟨_, _, rfl⟩)
    | exact Or.inr (Or.inr ⟨_, rfl⟩)

theorem execInvalid_next {w : Bool} {b : Byte} {s t : State} :
    exec (.invalid w b) s = .next t ↔ ∃ start, s.acc.instrStart = some start ∧
      t = raise (.invalidFieldCombination b s.pos start) (consumeByte b s) := by
  cases hs : s.acc.instrStart with
  | none => simp [exec, execInvalid, hs]
  | some start =>
    simp only [exec, execInvalid, hs, needField_some, Host.Outcome.next.injEq, Option.some.injEq, exists_eq_left']
    exact ⟨fun h => h.symm, fun h => h.symm⟩

theorem execUnrecognized_next {b : Byte} {s t : State} :
    exec (.unrecognized b) s = .next t ↔
      t = raise (.unrecognizedOpcode b s.pos)
        { consumeByte b s with acc := { s.acc with opcodeFamily := some .unrecognized } } := by
  simp only [exec, execUnrecognized, Host.Outcome.next.injEq]
  exact ⟨fun h => h.symm, fun h => h.symm⟩

/-! ### The fields after the read of a field and after completion -/

@[simp] theorem consumeField_mem (two : Bool) (s : State) : (consumeField two s).mem = s.mem := by cases two <;> rfl
@[simp] theorem consumeField_len (two : Bool) (s : State) : (consumeField two s).len = s.len := by cases two <;> rfl
@[simp] theorem consumeField_phase (two : Bool) (s : State) : (consumeField two s).phase = s.phase := by cases two <;> rfl
@[simp] theorem consumeField_acc (two : Bool) (s : State) : (consumeField two s).acc = s.acc := by cases two <;> rfl
@[simp] theorem consumeField_err (two : Bool) (s : State) : (consumeField two s).err = s.err := by cases two <;> rfl
@[simp] theorem consumeField_results (two : Bool) (s : State) : (consumeField two s).results = s.results := by cases two <;> rfl
@[simp] theorem consumeField_rst (two : Bool) (s : State) : (consumeField two s).rst = s.rst := by cases two <;> rfl
@[simp] theorem consumeField_pos (two : Bool) (s : State) : (consumeField two s).pos = s.pos + fieldBytes two := by cases two <;> rfl

/-- The exchange that delivers a field. -/
theorem consumeField_cur (two : Bool) (s : State) :
    (consumeField two s).cur =
      some (if two then { request := .readWord, response := .word (wordAtPos s) }
            else { request := .readByte, response := .byte (Memory.read s.mem s.pos) }) := by
  cases two <;> rfl

@[simp] theorem failField_mem (two : Bool) (s : State) : (failField two s).mem = s.mem := rfl
@[simp] theorem failField_len (two : Bool) (s : State) : (failField two s).len = s.len := rfl
@[simp] theorem failField_pos (two : Bool) (s : State) : (failField two s).pos = s.pos := rfl
@[simp] theorem failField_phase (two : Bool) (s : State) : (failField two s).phase = s.phase := rfl
@[simp] theorem failField_acc (two : Bool) (s : State) : (failField two s).acc = s.acc := rfl
@[simp] theorem failField_err (two : Bool) (s : State) : (failField two s).err = s.err := rfl
@[simp] theorem failField_results (two : Bool) (s : State) : (failField two s).results = s.results := rfl
@[simp] theorem failField_rst (two : Bool) (s : State) : (failField two s).rst = s.rst := rfl

@[simp] theorem failField_cur (two : Bool) (s : State) :
    (failField two s).cur = some { request := if two then .readWord else .readByte, response := .exhausted } := rfl

@[simp] theorem completedState_mem (operands : Operand × Operand) (start : Nat) (s : State) :
    (completedState operands start s).mem = s.mem := rfl
@[simp] theorem completedState_len (operands : Operand × Operand) (start : Nat) (s : State) :
    (completedState operands start s).len = s.len := rfl
@[simp] theorem completedState_pos (operands : Operand × Operand) (start : Nat) (s : State) :
    (completedState operands start s).pos = s.pos := rfl
@[simp] theorem completedState_phase (operands : Operand × Operand) (start : Nat) (s : State) :
    (completedState operands start s).phase = .awaitingOpcodeByte := rfl
@[simp] theorem completedState_acc (operands : Operand × Operand) (start : Nat) (s : State) :
    (completedState operands start s).acc = DecodeState.neutral := rfl
@[simp] theorem completedState_err (operands : Operand × Operand) (start : Nat) (s : State) :
    (completedState operands start s).err = s.err := rfl
@[simp] theorem completedState_results (operands : Operand × Operand) (start : Nat) (s : State) :
    (completedState operands start s).results = s.results ++ [.instruction (completedRecord operands start s)] := rfl
@[simp] theorem completedState_rst (operands : Operand × Operand) (start : Nat) (s : State) :
    (completedState operands start s).rst = s.rst := rfl
@[simp] theorem completedState_cur (operands : Operand × Operand) (start : Nat) (s : State) :
    (completedState operands start s).cur = none := rfl

end Sys2Proof.Machine
end

