-- ==== Sys2Proof/Laws/PerInstr.lean ====
section
/-! SUPPORT. Facts about each instruction as syntax: its encoding has the length that R66, R144 and R145 give. -/

namespace Sys2Proof.Laws.EncodedLength

/-- The encoding has the instruction's length, and that is 1 to 6 bytes. -/
def Statement (i : Instr) : Prop :=
  (encode i).length = i.length ∧ 1 ≤ i.length ∧ i.length ≤ Config.longestInstruction

theorem of_lengths {i : Instr} {n : Nat} (he : (encode i).length = n) (hl : i.length = n) (h1 : 1 ≤ n)
    (h6 : n ≤ Config.longestInstruction) : Statement i :=
  ⟨he.trans hl.symm, hl ▸ h1, hl ▸ h6⟩

theorem movRmRegDirectAddress (w : Bool) (reg : Index) (disp : Word) : Statement (.movRmRegDirectAddress w reg disp) :=
  of_lengths (n := 4) rfl rfl (by decide) (by decide)

theorem movRmRegMemoryNoDisplacement (w : Bool) (reg : Index) (rm : Index) : Statement (.movRmRegMemoryNoDisplacement w reg rm) :=
  of_lengths (n := 2) rfl rfl (by decide) (by decide)

theorem movRmRegMemoryByteDisplacement (w : Bool) (reg : Index) (rm : Index) (disp : Word) : Statement (.movRmRegMemoryByteDisplacement w reg rm disp) :=
  of_lengths (n := 3) rfl rfl (by decide) (by decide)

theorem movRmRegMemoryWordDisplacement (w : Bool) (reg : Index) (rm : Index) (disp : Word) : Statement (.movRmRegMemoryWordDisplacement w reg rm disp) :=
  of_lengths (n := 4) rfl rfl (by decide) (by decide)

theorem movRmRegRegisterDirect (w : Bool) (reg : Index) (rm : Index) : Statement (.movRmRegRegisterDirect w reg rm) :=
  of_lengths (n := 2) rfl rfl (by decide) (by decide)

theorem movRegRmDirectAddress (w : Bool) (reg : Index) (disp : Word) : Statement (.movRegRmDirectAddress w reg disp) :=
  of_lengths (n := 4) rfl rfl (by decide) (by decide)

theorem movRegRmMemoryNoDisplacement (w : Bool) (reg : Index) (rm : Index) : Statement (.movRegRmMemoryNoDisplacement w reg rm) :=
  of_lengths (n := 2) rfl rfl (by decide) (by decide)

theorem movRegRmMemoryByteDisplacement (w : Bool) (reg : Index) (rm : Index) (disp : Word) : Statement (.movRegRmMemoryByteDisplacement w reg rm disp) :=
  of_lengths (n := 3) rfl rfl (by decide) (by decide)

theorem movRegRmMemoryWordDisplacement (w : Bool) (reg : Index) (rm : Index) (disp : Word) : Statement (.movRegRmMemoryWordDisplacement w reg rm disp) :=
  of_lengths (n := 4) rfl rfl (by decide) (by decide)

theorem movRegRmRegisterDirect (w : Bool) (reg : Index) (rm : Index) : Statement (.movRegRmRegisterDirect w reg rm) :=
  of_lengths (n := 2) rfl rfl (by decide) (by decide)

theorem movRmImmDirectAddress (w : Bool) (disp : Word) (imm : Word) : Statement (.movRmImmDirectAddress w disp imm) := by
  cases w
  · exact of_lengths (n := 5) rfl rfl (by decide) (by decide)
  · exact of_lengths (n := 6) rfl rfl (by decide) (by decide)

theorem movRmImmMemoryNoDisplacement (w : Bool) (rm : Index) (imm : Word) : Statement (.movRmImmMemoryNoDisplacement w rm imm) := by
  cases w
  · exact of_lengths (n := 3) rfl rfl (by decide) (by decide)
  · exact of_lengths (n := 4) rfl rfl (by decide) (by decide)

theorem movRmImmMemoryByteDisplacement (w : Bool) (rm : Index) (disp : Word) (imm : Word) : Statement (.movRmImmMemoryByteDisplacement w rm disp imm) := by
  cases w
  · exact of_lengths (n := 4) rfl rfl (by decide) (by decide)
  · exact of_lengths (n := 5) rfl rfl (by decide) (by decide)

theorem movRmImmMemoryWordDisplacement (w : Bool) (rm : Index) (disp : Word) (imm : Word) : Statement (.movRmImmMemoryWordDisplacement w rm disp imm) := by
  cases w
  · exact of_lengths (n := 5) rfl rfl (by decide) (by decide)
  · exact of_lengths (n := 6) rfl rfl (by decide) (by decide)

theorem movRmImmRegisterDirect (w : Bool) (rm : Index) (imm : Word) : Statement (.movRmImmRegisterDirect w rm imm) := by
  cases w
  · exact of_lengths (n := 3) rfl rfl (by decide) (by decide)
  · exact of_lengths (n := 4) rfl rfl (by decide) (by decide)

theorem invalid (w : Bool) (modeByte : Byte) : Statement (.invalid w modeByte) :=
  of_lengths (n := 2) rfl rfl (by decide) (by decide)

theorem movRegImm (w : Bool) (reg : Index) (imm : Word) : Statement (.movRegImm w reg imm) := by
  cases w
  · exact of_lengths (n := 2) rfl rfl (by decide) (by decide)
  · exact of_lengths (n := 3) rfl rfl (by decide) (by decide)

theorem unrecognized (firstByte : Byte) : Statement (.unrecognized firstByte) :=
  of_lengths (n := 1) rfl rfl (by decide) (by decide)

end Sys2Proof.Laws.EncodedLength
end

