-- ==== Sys2Proof/Laws/Step.lean ====
section
/-! SUPPORT. What a step can do, said once: `Transition` lists R110's table, and `step_transition` says a step's next state is
one of them. -/

namespace Sys2Proof.Machine

/-- R110's table, one constructor per transition, named by what it does. -/
inductive Transition (s : State) : State → Prop where
  /-- R220. -/
  | reset (h : s.rst = true) : Transition s (externalReset s)
  /-- R111. -/
  | endOfStream (hr : s.rst = false) (hp : s.phase = .awaitingOpcodeByte) (hend : ¬ s.pos < s.len) :
      Transition s (endStream (setCursor .readByte .exhausted s))
  /-- R112. -/
  | opcodeByte (b0 : Byte) (hr : s.rst = false) (hp : s.phase = .awaitingOpcodeByte) (hlt : s.pos < s.len)
      (hb : b0 = Memory.read s.mem s.pos) (hf : classify b0 ≠ .unrecognized) :
      Transition s (Sys2Proof.Machine.opcodeByte (classify b0) b0 s.pos (consumeByte b0 s))
  /-- R113. -/
  | unrecognized (b0 : Byte) (hr : s.rst = false) (hp : s.phase = .awaitingOpcodeByte) (hlt : s.pos < s.len)
      (hb : b0 = Memory.read s.mem s.pos) (hf : classify b0 = .unrecognized) :
      Transition s (raise (.unrecognizedOpcode b0 s.pos)
        { consumeByte b0 s with acc := { s.acc with opcodeFamily := some .unrecognized } })
  /-- R114. -/
  | modeByte (b1 : Byte) (f : Family) (w : Bool) (hr : s.rst = false) (hp : s.phase = .awaitingModeByte) (hlt : s.pos < s.len)
      (hb : b1 = Memory.read s.mem s.pos) (hf : s.acc.opcodeFamily = some f) (hw : s.acc.wide = some w)
      (hu : f ≠ .unrecognized) (hv : ¬ (f = .immediateToRegisterOrMemory ∧ regBits b1 ≠ 0#3)) :
      Transition s (Sys2Proof.Machine.modeByte f w b1 (consumeByte b1 s))
  /-- R115. -/
  | invalid (b1 : Byte) (w : Bool) (start : Nat) (hr : s.rst = false) (hp : s.phase = .awaitingModeByte) (hlt : s.pos < s.len)
      (hb : b1 = Memory.read s.mem s.pos) (hf : s.acc.opcodeFamily = some .immediateToRegisterOrMemory)
      (hw : s.acc.wide = some w) (hv : regBits b1 ≠ 0#3) (hs : s.acc.instrStart = some start) :
      Transition s (raise (.invalidFieldCombination b1 s.pos start) (consumeByte b1 s))
  /-- R117. -/
  | displacement (two : Bool) (hr : s.rst = false) (hp : s.phase = .awaitingDisplacementOrImmediate)
      (hd : s.acc.pendingBytes.disp = if two then .two else .one) (hlt : fieldBytes two ≤ s.len - s.pos) :
      Transition s (storeDisplacement (fieldAtPos two s) (consumeField two s))
  /-- R118. -/
  | immediate (two : Bool) (hr : s.rst = false) (hp : s.phase = .awaitingDisplacementOrImmediate)
      (hd : s.acc.pendingBytes.disp = .zero) (hi : s.acc.pendingBytes.imm = if two then .two else .one)
      (hlt : fieldBytes two ≤ s.len - s.pos) :
      Transition s (storeImmediate (fieldAtPos two s) (consumeField two s))
  /-- R119, at the mode byte. -/
  | truncatedAtMode (start : Nat) (hr : s.rst = false) (hp : s.phase = .awaitingModeByte) (hend : ¬ s.pos < s.len)
      (hs : s.acc.instrStart = some start) :
      Transition s (raise (.truncatedInstruction s.pos start) (setCursor .readByte .exhausted s))
  /-- R119, at a displacement or an immediate. -/
  | truncatedAtField (two : Bool) (start : Nat) (hr : s.rst = false) (hp : s.phase = .awaitingDisplacementOrImmediate)
      (hend : ¬ fieldBytes two ≤ s.len - s.pos)
      (hd : s.acc.pendingBytes.disp = (if two then .two else .one) ∨
        (s.acc.pendingBytes.disp = .zero ∧ s.acc.pendingBytes.imm = if two then .two else .one))
      (hs : s.acc.instrStart = some start) :
      Transition s (raise (.truncatedInstruction s.pos start) (failField two s))
  /-- R120. -/
  | completion (i : Instr) (operands : Operand × Operand) (start : Nat) (hr : s.rst = false) (hp : s.phase = .complete)
      (hg : s.acc.gathered = .ok i) (ho : operandsOf i = some operands) (hs : s.acc.instrStart = some start) :
      Transition s (completedState operands start s)
  /-- R121. -/
  | idle (hr : s.rst = false) (hp : s.phase.isTerminal = true) : Transition s (idleCursor s)

theorem rmForm_movRegister_operands (d : Direction) (w : Bool) (reg : Index) (rm : RmForm) :
    operandsOf (rm.movRegister d w reg) = some (registerMoveOperands d w reg rm) := by
  cases d <;> cases rm <;> rfl

theorem rmForm_movRmImm_operands (w : Bool) (imm : Word) (rm : RmForm) :
    operandsOf (rm.movRmImm w imm) = some (immediateToRmOperands w rm imm) := by
  cases rm <;> rfl

/-- What `gathered` reads of a completed accumulator, by family. -/
theorem gathered_ok {a : DecodeState} {i : Instr} (h : a.gathered = .ok i) :
    (∃ d w reg rm, a.opcodeFamily = some .registerOrMemoryToRegister ∧ a.direction = some d ∧ a.wide = some w ∧
      a.regField = some reg ∧ a.rmForm = .ok rm ∧ i = rm.movRegister d w reg) ∨
    (∃ w rm imm, a.opcodeFamily = some .immediateToRegisterOrMemory ∧ a.wide = some w ∧ a.rmForm = .ok rm ∧
      a.immediate = some imm ∧ i = rm.movRmImm w imm) ∨
    (∃ w reg imm, a.opcodeFamily = some .immediateToRegister ∧ a.wide = some w ∧ a.regField = some reg ∧
      a.immediate = some imm ∧ i = .movRegImm w reg imm) := by
  unfold DecodeState.gathered at h
  rcases hf : a.opcodeFamily with _ | f
  · simp [hf, bind, Except.bind] at h
  · cases f
    · rcases hd : a.direction with _ | d <;> rcases hw : a.wide with _ | w <;> rcases hg : a.regField with _ | reg <;>
        rcases hm : a.rmForm with e | rm <;> simp [hf, hd, hw, hg, hm, bind, Except.bind, pure, Except.pure] at h
      exact Or.inl ⟨d, w, reg, rm, rfl, rfl, rfl, rfl, rfl, h.symm⟩
    · rcases hw : a.wide with _ | w <;> rcases hm : a.rmForm with e | rm <;> rcases hi : a.immediate with _ | imm <;>
        simp [hf, hw, hm, hi, bind, Except.bind, pure, Except.pure] at h
      exact Or.inr (Or.inl ⟨w, rm, imm, rfl, rfl, rfl, rfl, h.symm⟩)
    · rcases hw : a.wide with _ | w <;> rcases hg : a.regField with _ | reg <;> rcases hi : a.immediate with _ | imm <;>
        simp [hf, hw, hg, hi, bind, Except.bind, pure, Except.pure] at h
      exact Or.inr (Or.inr ⟨w, reg, imm, rfl, rfl, rfl, rfl, h.symm⟩)
    · simp [hf, bind, Except.bind, throw, throwThe, MonadExceptOf.throw] at h

/-- A completed accumulator holds a MOV. -/
theorem gathered_operands {a : DecodeState} {i : Instr} (h : a.gathered = .ok i) : ∃ operands, operandsOf i = some operands := by
  rcases gathered_ok h with ⟨d, w, reg, rm, -, -, -, -, -, rfl⟩ | ⟨w, rm, imm, -, -, -, -, rfl⟩ | ⟨w, reg, imm, -, -, -, -, rfl⟩
  · exact ⟨_, rmForm_movRegister_operands d w reg rm⟩
  · exact ⟨_, rmForm_movRmImm_operands w imm rm⟩
  · exact ⟨_, rfl⟩

/-- What `gatherField` answers. -/
theorem gatherField_ok {two : Bool} {store : Word → State → State} {s : State} {a : Action}
    (h : gatherField two store s = .ok a) :
    (fieldBytes two ≤ s.len - s.pos ∧ a = .goto (store (fieldAtPos two s) (consumeField two s))) ∨
    (¬ fieldBytes two ≤ s.len - s.pos ∧ ∃ start, s.acc.instrStart = some start ∧
      a = .goto (raise (.truncatedInstruction s.pos start) (failField two s))) := by
  by_cases hb : fieldBytes two ≤ s.len - s.pos
  · simp only [gatherField, readSigned_lt hb, pure, Except.pure, Except.ok.injEq] at h
    exact Or.inl ⟨hb, h.symm⟩
  · simp only [gatherField, readSigned_end hb, bind, Except.bind] at h
    split at h
    · simp at h
    · rename_i t ht
      obtain ⟨start, hs, rfl⟩ := truncate_ok ht
      simp only [pure, Except.pure, Except.ok.injEq] at h
      exact Or.inr ⟨hb, start, hs, h.symm⟩

/-- A step that answers a next state takes one transition of R110's table. -/
theorem step_transition {s t : State} (h : step s = .next t) : Transition s t := by
  unfold step nextAction at h
  cases hr : s.rst with
  | true => simp only [hr, if_true, Host.Outcome.next.injEq] at h; subst h; exact .reset hr
  | false =>
    simp only [hr, Bool.false_eq_true, if_false] at h
    cases hp : s.phase with
    | awaitingOpcodeByte =>
      simp only [hp, opcodeAction] at h
      by_cases hlt : s.pos < s.len
      · simp only [readByte_lt hlt] at h
        have hop := Transition.opcodeByte (s := s) _ hr hp hlt rfl
        have hun := Transition.unrecognized (s := s) _ hr hp hlt rfl
        cases hf : classify (Memory.read s.mem s.pos) <;> simp only [hf] at h hop hun
        · cases h; exact hop (by simp)
        · cases h; exact hop (by simp)
        · cases h; exact hop (by simp)
        · rw [execUnrecognized_next] at h; subst h; exact hun trivial
      · simp only [readByte_end hlt, Host.Outcome.next.injEq] at h; subst h; exact .endOfStream hr hp hlt
    | awaitingModeByte =>
      simp only [hp, modeAction] at h
      by_cases hlt : s.pos < s.len
      · simp only [readByte_lt hlt, bind, Except.bind] at h
        rcases hf : s.acc.opcodeFamily with _ | f
        · simp [hf] at h
        · rcases hw : s.acc.wide with _ | w
          · simp [hf, hw] at h
          · simp only [hf, hw, needField_some] at h
            cases f
            · simp only [pure, Except.pure, Host.Outcome.next.injEq] at h; subst h
              exact .modeByte _ _ w hr hp hlt rfl hf hw (by simp) (by simp)
            · by_cases hv : regBits (Memory.read s.mem s.pos) ≠ 0#3
              · simp only [if_pos hv, pure, Except.pure] at h
                obtain ⟨start, hs, rfl⟩ := execInvalid_next.1 h
                exact .invalid _ w start hr hp hlt rfl hf hw hv hs
              · simp only [if_neg hv, pure, Except.pure, Host.Outcome.next.injEq] at h; subst h
                exact .modeByte _ _ w hr hp hlt rfl hf hw (by simp) (fun hc => hv hc.2)
            · simp only [pure, Except.pure, Host.Outcome.next.injEq] at h; subst h
              exact .modeByte _ _ w hr hp hlt rfl hf hw (by simp) (by simp)
            · simp [throw, throwThe, MonadExceptOf.throw] at h
      · simp only [readByte_end hlt, bind, Except.bind] at h
        rcases hs : s.acc.instrStart with _ | start
        · simp [truncate, hs] at h
        · rw [truncate_some (start := start) (by simpa using hs)] at h
          simp only [pure, Except.pure, Host.Outcome.next.injEq] at h; subst h
          exact .truncatedAtMode start hr hp hlt hs
    | awaitingDisplacementOrImmediate =>
      simp only [hp] at h
      cases hq : fieldAction s with
      | error f => simp [hq] at h
      | ok a =>
        simp only [hq] at h
        unfold fieldAction at hq
        split at hq
        · rename_i hd
          rcases gatherField_ok hq with ⟨hb, rfl⟩ | ⟨hb, start, hs, rfl⟩ <;> cases h
          · exact .displacement false hr hp hd hb
          · exact .truncatedAtField false start hr hp hb (Or.inl hd) hs
        · rename_i hd
          rcases gatherField_ok hq with ⟨hb, rfl⟩ | ⟨hb, start, hs, rfl⟩ <;> cases h
          · exact .displacement true hr hp hd hb
          · exact .truncatedAtField true start hr hp hb (Or.inl hd) hs
        · rename_i hd hi
          rcases gatherField_ok hq with ⟨hb, rfl⟩ | ⟨hb, start, hs, rfl⟩ <;> cases h
          · exact .immediate false hr hp hd hi hb
          · exact .truncatedAtField false start hr hp hb (Or.inr ⟨hd, hi⟩) hs
        · rename_i hd hi
          rcases gatherField_ok hq with ⟨hb, rfl⟩ | ⟨hb, start, hs, rfl⟩ <;> cases h
          · exact .immediate true hr hp hd hi hb
          · exact .truncatedAtField true start hr hp hb (Or.inr ⟨hd, hi⟩) hs
        · simp [throw, throwThe, MonadExceptOf.throw] at hq
    | complete =>
      simp only [hp, bind, Except.bind] at h
      rcases hg : s.acc.gathered with e | i
      · simp [hg] at h
      · simp only [hg, pure, Except.pure] at h
        obtain ⟨operands, ho⟩ := gathered_operands hg
        rw [exec_of_operands ho] at h
        obtain ⟨start, hs, rfl⟩ := complete_next.1 h
        exact .completion i operands start hr hp hg ho hs
    | done => simp only [hp, Host.Outcome.next.injEq] at h; subst h; exact .idle hr (by simp [hp, Phase.isTerminal])
    | faulted => simp only [hp, Host.Outcome.next.injEq] at h; subst h; exact .idle hr (by simp [hp, Phase.isTerminal])

/-- The step of a field that is whole. -/
theorem step_field {two : Bool} {store : Word → State → State} {s : State} (hr : s.rst = false)
    (hp : s.phase = .awaitingDisplacementOrImmediate) (hf : fieldAction s = gatherField two store s)
    (h : fieldBytes two ≤ s.len - s.pos) : step s = .next (store (fieldAtPos two s) (consumeField two s)) := by
  simp [step, nextAction, hr, hp, hf, gatherField, readSigned_lt h, pure, Except.pure]

/-- The step of a field that is not whole. -/
theorem step_field_end {two : Bool} {store : Word → State → State} {s : State} {start : Nat} (hr : s.rst = false)
    (hp : s.phase = .awaitingDisplacementOrImmediate) (hf : fieldAction s = gatherField two store s)
    (hs : s.acc.instrStart = some start) (h : ¬ fieldBytes two ≤ s.len - s.pos) :
    step s = .next (raise (.truncatedInstruction s.pos start) (failField two s)) := by
  simp [step, nextAction, hr, hp, hf, gatherField, readSigned_end h, pure, Except.pure, bind, Except.bind, truncate, hs]

/-- Every transition of the table is what the step answers. -/
theorem step_of_transition {s t : State} (h : Transition s t) : step s = .next t := by
  cases h with
  | reset hr => simp [step, nextAction, hr]
  | endOfStream hr hp hend => simp [step, nextAction, hr, hp, opcodeAction, readByte_end hend]
  | opcodeByte b0 hr hp hlt hb hf =>
    subst hb
    cases hc : classify (Memory.read s.mem s.pos) <;> simp only [hc, ne_eq, not_true] at hf <;>
      simp [step, nextAction, hr, hp, opcodeAction, readByte_lt hlt, hc]
  | unrecognized b0 hr hp hlt hb hf =>
    subst hb
    simp only [step, nextAction, hr, hp, opcodeAction, readByte_lt hlt, hf]
    exact execUnrecognized_next.2 rfl
  | modeByte b1 f w hr hp hlt hb hf hw hu hv =>
    subst hb
    cases f <;> simp at hu hv <;>
      simp [step, nextAction, hr, hp, modeAction, readByte_lt hlt, hf, hw, hv, bind, Except.bind, pure, Except.pure]
  | invalid b1 w start hr hp hlt hb hf hw hv hs =>
    subst hb
    simp [step, nextAction, hr, hp, modeAction, readByte_lt hlt, hf, hw, hv, bind, Except.bind, pure, Except.pure,
      execInvalid_next.2 ⟨start, hs, rfl⟩]
  | displacement two hr hp hd hlt => exact step_field hr hp (by cases two <;> simp [fieldAction, hd]) hlt
  | immediate two hr hp hd hi hlt => exact step_field hr hp (by cases two <;> simp [fieldAction, hd, hi]) hlt
  | truncatedAtMode start hr hp hend hs =>
    simp [step, nextAction, hr, hp, modeAction, readByte_end hend, bind, Except.bind, pure, Except.pure, truncate, hs]
  | truncatedAtField two start hr hp hend hd hs =>
    rcases hd with hd | ⟨hd, hi⟩
    · exact step_field_end (store := storeDisplacement) hr hp (by cases two <;> simp [fieldAction, hd]) hs hend
    · exact step_field_end (store := storeImmediate) hr hp (by cases two <;> simp [fieldAction, hd, hi]) hs hend
  | completion i operands start hr hp hg ho hs =>
    simp [step, nextAction, hr, hp, hg, bind, Except.bind, pure, Except.pure, exec_of_operands ho, complete_some hs]
  | idle hr hp =>
    cases hq : s.phase <;> simp [hq, Phase.isTerminal] at hp <;> simp [step, nextAction, hr, hq]

/-- The step is the table: a next state is exactly a transition. -/
theorem step_next_iff {s t : State} : step s = .next t ↔ Transition s t := ⟨step_transition, step_of_transition⟩

/-- The host's run of this machine is `stepMany`. -/
theorem core_run_eq (n : Nat) (s : State) : Host.Core.run Sys2Proof.core n s = stepMany n s := by
  induction n generalizing s with
  | zero => rfl
  | succ n ih =>
    simp only [Host.Core.run, stepMany]
    rw [show Sys2Proof.core.step s = step s from rfl]
    cases step s with
    | next t => exact ih t
    | fault f => rfl
    | refused r => rfl

end Sys2Proof.Machine
end

