-- ==== Sys2Proof/Tests/Slice0.lean ====
section
/-! SUPPORT. Tests of the model, by evaluation. The expected results are those of spec/95_test_vectors.md (its section in each
comment) or of the rule named; the last part holds a witness for each obligation with hypotheses. -/

namespace Sys2Proof.Tests

open Sys2Proof Sys2Proof.Machine

/-! ### States for the tests -/

/-- The state after some steps from reset over some bytes. -/
def after (n : Nat) (bytes : List Byte) : State :=
  match stepMany n (powerOn bytes) with
  | .next t => t
  | .fault _ => State.reset
  | .refused _ => State.reset

/-- The items of the run over some bytes. -/
def itemsAfterRun (bytes : List Byte) : List ResultItem := (after (runBound bytes.length) bytes).results

/-- The text of a run's first record. -/
def firstLine (bytes : List Byte) : Option String := ((itemsAfterRun bytes).flatMap itemLines).head?

/-- A state in the middle of an instruction that starts at 0: the position and the accumulator matter to a meaning, the
phase does not. -/
def midway (pos : Nat) : State :=
  { powerOn [0xC6, 0x46, 0xFE, 0x80] with pos := pos, acc := { DecodeState.neutral with instrStart := some 0 } }

/-- The outcome of one step, its records and its phase. -/
def emitted (o : Host.Outcome State Fault Refusal) : List ResultItem × Option Phase :=
  match o with
  | .next t => (t.results, some t.phase)
  | .fault _ => ([], none)
  | .refused _ => ([], none)

/-- What a meaning emits at position `pos` for an instruction that starts at 0. -/
def emits (i : Instr) (pos : Nat) : List ResultItem × Option Phase := emitted (exec i (midway pos))

/-- The expected result of a MOV: one record and the phase `AwaitingOpcodeByte`. -/
def record (dst src : Operand) (length : Nat) : List ResultItem × Option Phase :=
  ([.instruction { mnemonic := .mov, destinationOperand := dst, sourceOperand := src, start := 0, length := length }],
    some .awaitingOpcodeByte)

/-! ### Well-formedness: an ill-formed term for each check (R64, R71, R75, R76) -/

theorem test_wf_no_displacement_excludes_six :
    WellFormed (.movRmRegMemoryNoDisplacement true 0 6) = false ∧ WellFormed (.movRegRmMemoryNoDisplacement true 0 6) = false ∧
    WellFormed (.movRmImmMemoryNoDisplacement true 6 0) = false ∧ WellFormed (.movRmRegMemoryNoDisplacement true 0 7) = true := by
  decide

theorem test_wf_byte_displacement_is_signed_byte :
    WellFormed (.movRmRegMemoryByteDisplacement true 0 0 128) = false ∧
    WellFormed (.movRegRmMemoryByteDisplacement true 0 0 0xFF7F) = false ∧
    WellFormed (.movRmImmMemoryByteDisplacement true 0 128 0) = false ∧
    WellFormed (.movRmRegMemoryByteDisplacement true 0 0 127) = true ∧
    WellFormed (.movRmRegMemoryByteDisplacement true 0 0 (-128)) = true := by
  decide

theorem test_wf_byte_immediate_is_signed_byte :
    WellFormed (.movRmImmDirectAddress false 0 255) = false ∧ WellFormed (.movRmImmMemoryNoDisplacement false 0 255) = false ∧
    WellFormed (.movRmImmMemoryByteDisplacement false 0 0 255) = false ∧
    WellFormed (.movRmImmMemoryWordDisplacement false 0 0 255) = false ∧
    WellFormed (.movRmImmRegisterDirect false 0 255) = false ∧ WellFormed (.movRegImm false 0 255) = false ∧
    WellFormed (.movRegImm true 0 255) = true ∧ WellFormed (.movRegImm false 0 (-1)) = true := by
  decide

theorem test_wf_invalid_needs_reg : WellFormed (.invalid true 0xC7) = false ∧ WellFormed (.invalid true 0x08) = true := by
  decide

theorem test_wf_unrecognized_bytes :
    WellFormed (.unrecognized 0x88) = false ∧ WellFormed (.unrecognized 0x8B) = false ∧ WellFormed (.unrecognized 0xB0) = false ∧
    WellFormed (.unrecognized 0xBF) = false ∧ WellFormed (.unrecognized 0xC6) = false ∧ WellFormed (.unrecognized 0xC7) = false ∧
    WellFormed (.unrecognized 0x87) = true ∧ WellFormed (.unrecognized 0x8C) = true ∧ WellFormed (.unrecognized 0xAF) = true ∧
    WellFormed (.unrecognized 0xC0) = true ∧ WellFormed (.unrecognized 0xC5) = true ∧ WellFormed (.unrecognized 0xC8) = true := by
  decide

/-! ### Decoding: each constructor's word, written field by field from R67 to R69 -/

theorem test_decode_movRmRegDirectAddress :
    decode [0b100010#6 ++ 0b0#1 ++ 0b1#1, 0b00#2 ++ 0b001#3 ++ 0b110#3, 0x06, 0x00] =
      .ok (.movRmRegDirectAddress true 1 6, []) := by decide

theorem test_decode_movRmRegMemoryNoDisplacement :
    decode [0b100010#6 ++ 0b0#1 ++ 0b0#1, 0b00#2 ++ 0b010#3 ++ 0b101#3] =
      .ok (.movRmRegMemoryNoDisplacement false 2 5, []) := by decide

theorem test_decode_movRmRegMemoryByteDisplacement :
    decode [0b100010#6 ++ 0b0#1 ++ 0b1#1, 0b01#2 ++ 0b011#3 ++ 0b110#3, 0x80] =
      .ok (.movRmRegMemoryByteDisplacement true 3 6 (-128), []) := by decide

theorem test_decode_movRmRegMemoryWordDisplacement :
    decode [0b100010#6 ++ 0b0#1 ++ 0b1#1, 0b10#2 ++ 0b001#3 ++ 0b100#3, 0xD4, 0xFE] =
      .ok (.movRmRegMemoryWordDisplacement true 1 4 (-300), []) := by decide

theorem test_decode_movRmRegRegisterDirect :
    decode [0b100010#6 ++ 0b0#1 ++ 0b1#1, 0b11#2 ++ 0b011#3 ++ 0b000#3] =
      .ok (.movRmRegRegisterDirect true 3 0, []) := by decide

theorem test_decode_movRegRmDirectAddress :
    decode [0b100010#6 ++ 0b1#1 ++ 0b1#1, 0b00#2 ++ 0b011#3 ++ 0b110#3, 0x82, 0x0D] =
      .ok (.movRegRmDirectAddress true 3 3458, []) := by decide

theorem test_decode_movRegRmMemoryNoDisplacement :
    decode [0b100010#6 ++ 0b1#1 ++ 0b0#1, 0b00#2 ++ 0b000#3 ++ 0b000#3] =
      .ok (.movRegRmMemoryNoDisplacement false 0 0, []) := by decide

theorem test_decode_movRegRmMemoryByteDisplacement :
    decode [0b100010#6 ++ 0b1#1 ++ 0b1#1, 0b01#2 ++ 0b001#3 ++ 0b110#3, 0x02] =
      .ok (.movRegRmMemoryByteDisplacement true 1 6 2, []) := by decide

theorem test_decode_movRegRmMemoryWordDisplacement :
    decode [0b100010#6 ++ 0b1#1 ++ 0b1#1, 0b10#2 ++ 0b000#3 ++ 0b000#3, 0x34, 0x12] =
      .ok (.movRegRmMemoryWordDisplacement true 0 0 0x1234, []) := by decide

theorem test_decode_movRegRmRegisterDirect :
    decode [0b100010#6 ++ 0b1#1 ++ 0b1#1, 0b11#2 ++ 0b010#3 ++ 0b101#3] =
      .ok (.movRegRmRegisterDirect true 2 5, []) := by decide

theorem test_decode_movRmImmDirectAddress :
    decode [0b1100011#7 ++ 0b1#1, 0b00#2 ++ 0b000#3 ++ 0b110#3, 0x00, 0x10, 0xFF, 0xFF] =
      .ok (.movRmImmDirectAddress true 4096 (-1), []) := by decide

theorem test_decode_movRmImmMemoryNoDisplacement :
    decode [0b1100011#7 ++ 0b0#1, 0b00#2 ++ 0b000#3 ++ 0b011#3, 0x07] =
      .ok (.movRmImmMemoryNoDisplacement false 3 7, []) := by decide

theorem test_decode_movRmImmMemoryByteDisplacement :
    decode [0b1100011#7 ++ 0b0#1, 0b01#2 ++ 0b000#3 ++ 0b110#3, 0xFE, 0x80] =
      .ok (.movRmImmMemoryByteDisplacement false 6 (-2) (-128), []) := by decide

theorem test_decode_movRmImmMemoryWordDisplacement :
    decode [0b1100011#7 ++ 0b1#1, 0b10#2 ++ 0b000#3 ++ 0b101#3, 0x85, 0x03, 0x5B, 0x01] =
      .ok (.movRmImmMemoryWordDisplacement true 5 901 347, []) := by decide

theorem test_decode_movRmImmRegisterDirect :
    decode [0b1100011#7 ++ 0b0#1, 0b11#2 ++ 0b000#3 ++ 0b100#3, 0x80] =
      .ok (.movRmImmRegisterDirect false 4 (-128), []) := by decide

theorem test_decode_invalid :
    decode [0b1100011#7 ++ 0b0#1, 0b00#2 ++ 0b001#3 ++ 0b000#3, 0x07, 0x00] =
      .ok (.invalid false 0x08, [0x07, 0x00]) := by decide

theorem test_decode_movRegImm :
    decode [0b1011#4 ++ 0b1#1 ++ 0b001#3, 0xF4, 0xFF] = .ok (.movRegImm true 1 (-12), []) ∧
    decode [0b1011#4 ++ 0b0#1 ++ 0b100#3, 0x7F] = .ok (.movRegImm false 4 127, []) := by decide

theorem test_decode_unrecognized :
    decode [0b10010000#8, 0x89, 0xD8] = .ok (.unrecognized 0x90, [0x89, 0xD8]) := by decide

/-- Section 2.5: the byte count before the field that is not whole. -/
theorem test_decode_truncated :
    decode [] = .error .endOfBytes ∧ decode [0x8B] = .error (.truncated 1) ∧ decode [0x8B, 0x80, 0x34] = .error (.truncated 2) ∧
    decode [0xC7, 0x06, 0x00, 0x10, 0x0F] = .error (.truncated 4) ∧ decode [0xB9, 0x0C] = .error (.truncated 1) := by decide

/-! ### The opcode table's numbering: each row's `match` word (log 8) -/

theorem test_table_words_mov :
    decodeTableWord 16 0x8806 = some (.movRmRegDirectAddress false 0 0) ∧
    decodeTableWord 16 0x8800 = some (.movRmRegMemoryNoDisplacement false 0 0) ∧
    decodeTableWord 16 0x8A40 = some (.movRegRmMemoryByteDisplacement false 0 0 0) ∧
    decodeTableWord 16 0x8A80 = some (.movRegRmMemoryWordDisplacement false 0 0 0) ∧
    decodeTableWord 16 0xC6C0 = some (.movRmImmRegisterDirect false 0 0) ∧
    decodeTableWord 16 0xB000 = some (.movRegImm false 0 0) := by decide

/-- Row 16's word belongs to row 12, which stands before it; with a reg sub-field it is row 16's. -/
theorem test_table_words_rejected :
    decodeTableWord 16 0xC600 = some (.movRmImmMemoryNoDisplacement false 0 0) ∧
    decodeTableWord 16 0xC608 = some (.invalid false 0x08) ∧ decodeTableWord 16 0x0000 = some (.unrecognized 0x00) ∧
    decodeTableWord 8 0x90 = some (.unrecognized 0x90) ∧
    decodeTableWord 48 0x0F1010FFC706 = some (.movRmImmDirectAddress true 0xFF10 0x100F) := by decide

/-- The placed instruction is what the next step after reset runs. -/
theorem test_fetch_word :
    step (State.reset.withFetchWord 16 0x8806) = exec (.movRmRegDirectAddress false 0 0) (State.reset.withFetchWord 16 0x8806) ∧
    step (State.reset.withFetchWord 16 0xC6C0) = exec (.movRmImmRegisterDirect false 0 0) (State.reset.withFetchWord 16 0xC6C0) ∧
    step (State.reset.withFetchWord 16 0xC608) = exec (.invalid false 0x08) (State.reset.withFetchWord 16 0xC608) ∧
    step (State.reset.withFetchWord 16 0x0000) = exec (.unrecognized 0x00) (State.reset.withFetchWord 16 0x0000) := by
  exact ⟨rfl, rfl, rfl, rfl⟩

/-! ### The meanings: the record of each instruction (sections 2.1 to 2.4) -/

theorem test_exec_movRmRegDirectAddress :
    emits (.movRmRegDirectAddress true 3 0xFFFF) 4 = record (.direct 65535) (.reg .word 3) 4 := by decide

theorem test_exec_movRmRegMemoryNoDisplacement :
    emits (.movRmRegMemoryNoDisplacement false 0 0) 2 = record (.mem 0 none) (.reg .byte 0) 2 := by decide

theorem test_exec_movRmRegMemoryByteDisplacement :
    emits (.movRmRegMemoryByteDisplacement true 3 6 (-128)) 3 = record (.mem 6 (some (-128))) (.reg .word 3) 3 := by decide

theorem test_exec_movRmRegMemoryWordDisplacement :
    emits (.movRmRegMemoryWordDisplacement true 1 4 (-300)) 4 = record (.mem 4 (some (-300))) (.reg .word 1) 4 := by decide

theorem test_exec_movRmRegRegisterDirect :
    emits (.movRmRegRegisterDirect false 0 1) 2 = record (.reg .byte 1) (.reg .byte 0) 2 := by decide

theorem test_exec_movRegRmDirectAddress :
    emits (.movRegRmDirectAddress false 1 0x8000) 4 = record (.reg .byte 1) (.direct 32768) 4 := by decide

theorem test_exec_movRegRmMemoryNoDisplacement :
    emits (.movRegRmMemoryNoDisplacement true 3 3) 2 = record (.reg .word 3) (.mem 3 none) 2 := by decide

theorem test_exec_movRegRmMemoryByteDisplacement :
    emits (.movRegRmMemoryByteDisplacement true 2 6 0) 3 = record (.reg .word 2) (.mem 6 (some 0)) 3 := by decide

theorem test_exec_movRegRmMemoryWordDisplacement :
    emits (.movRegRmMemoryWordDisplacement true 0 0 (-1)) 4 = record (.reg .word 0) (.mem 0 (some (-1))) 4 := by decide

theorem test_exec_movRegRmRegisterDirect :
    emits (.movRegRmRegisterDirect true 1 4) 2 = record (.reg .word 1) (.reg .word 4) 2 := by decide

theorem test_exec_movRmImmDirectAddress :
    emits (.movRmImmDirectAddress true 0xFFFF 0x8000) 6 = record (.direct 65535) (.imm .word (-32768) true) 6 := by decide

theorem test_exec_movRmImmMemoryNoDisplacement :
    emits (.movRmImmMemoryNoDisplacement false 3 7) 3 = record (.mem 3 none) (.imm .byte 7 true) 3 := by decide

theorem test_exec_movRmImmMemoryByteDisplacement :
    emits (.movRmImmMemoryByteDisplacement false 6 (-2) (-128)) 4 = record (.mem 6 (some (-2))) (.imm .byte (-128) true) 4 := by
  decide

theorem test_exec_movRmImmMemoryWordDisplacement :
    emits (.movRmImmMemoryWordDisplacement true 5 901 347) 6 = record (.mem 5 (some 901)) (.imm .word 347 true) 6 := by decide

theorem test_exec_movRmImmRegisterDirect :
    emits (.movRmImmRegisterDirect false 4 (-128)) 3 = record (.reg .byte 4) (.imm .byte (-128) false) 3 := by decide

theorem test_exec_movRegImm :
    emits (.movRegImm false 4 (-123)) 2 = record (.reg .byte 4) (.imm .byte (-123) false) 2 := by decide

/-- Section 2.5. -/
theorem test_exec_invalid :
    emits (.invalid false 0x08) 1 = ([.outcome (.invalidFieldCombination 0x08 1 0)], some .faulted) := by decide

/-- Section 2.5. -/
theorem test_exec_unrecognized :
    emits (.unrecognized 0xA1) 0 = ([.outcome (.unrecognizedOpcode 0xA1 0)], some .faulted) := by decide

/-! ### The transitions (section 1.1, the steps of E1 and E3) -/

theorem test_step_opcode_byte :
    (after 1 [0x89, 0xD8]).acc =
      { DecodeState.neutral with
        instrStart := some 0, opcodeFamily := some .registerOrMemoryToRegister, direction := some .sourceIsRegister,
        wide := some true, pendingBytes := { mode := true, disp := .zero, imm := .zero } } ∧
    (after 1 [0x89, 0xD8]).phase = .awaitingModeByte ∧ (after 1 [0x89, 0xD8]).pos = 1 := by decide

theorem test_step_mode_byte :
    (after 2 [0x8B, 0x4E, 0x02]).acc.addressingMode = some .memoryByteDisplacement ∧
    (after 2 [0x8B, 0x4E, 0x02]).acc.regField = some 1 ∧ (after 2 [0x8B, 0x4E, 0x02]).acc.rmField = some 6 ∧
    (after 2 [0x8B, 0x4E, 0x02]).acc.pendingBytes = { mode := false, disp := .one, imm := .zero } ∧
    (after 2 [0x8B, 0x4E, 0x02]).phase = .awaitingDisplacementOrImmediate := by decide

theorem test_step_displacement :
    (after 3 [0x8B, 0x4E, 0x02]).acc.displacement = some 2 ∧ (after 3 [0x8B, 0x4E, 0x02]).phase = .complete ∧
    (after 3 [0x8B, 0x4E, 0x02]).pos = 3 := by decide

/-- Section 3.3: the displacement first, then the immediate. -/
theorem test_step_immediate :
    (after 3 [0xC6, 0x87, 0x00, 0x01, 0xFF]).acc.pendingBytes = { mode := false, disp := .zero, imm := .one } ∧
    (after 3 [0xC6, 0x87, 0x00, 0x01, 0xFF]).acc.displacement = some 256 ∧
    (after 4 [0xC6, 0x87, 0x00, 0x01, 0xFF]).acc.immediate = some (-1) := by decide

/-- Section 2.5: a `readWord` that fails consumes nothing. -/
theorem test_step_truncated :
    (after 3 [0x8B, 0x80, 0x34]).err = some (.truncatedInstruction 2 0) ∧ (after 3 [0x8B, 0x80, 0x34]).pos = 2 ∧
    (after 3 [0x8B, 0x80, 0x34]).phase = .faulted := by decide

/-- Section 2.7: a step after the end changes nothing but the idle ports; a reset starts the run again. -/
theorem test_step_after_end_and_reset :
    (after 2 [0x90]).results = [.outcome (.unrecognizedOpcode 0x90 0)] ∧
    step (assertReset (after 2 [0x90])) = .next (powerOn [0x90]) := by exact ⟨rfl, rfl⟩

/-- Section 2.5: the items and the text of short runs. -/
theorem test_run_items :
    itemsAfterRun [0x89, 0xD8, 0x8B] =
      [.instruction { mnemonic := .mov, destinationOperand := .reg .word 0, sourceOperand := .reg .word 3, start := 0, length := 2 },
       .outcome (.truncatedInstruction 3 2)] ∧
    itemsAfterRun [] = [.outcome .endOfStream] := by decide

theorem test_text_register : firstLine [0x89, 0xD8] = some "mov ax, bx" := by decide

theorem test_text_memory : firstLine [0x8B, 0x40, 0xFF] = some "mov ax, [bx + si + -1]" := by decide

theorem test_text_direct : firstLine [0x8A, 0x0E, 0x00, 0x80] = some "mov cl, [32768]" := by decide

/-- 43_addressing_resolution.md R172, R162: the two-byte extreme, and entry 4 of the base table. -/
theorem test_text_word : firstLine [0x89, 0x8C, 0xD4, 0xFE] = some "mov [si + -300], cx" ∧
    firstLine [0xC7, 0x06, 0xFF, 0xFF, 0x00, 0x80] = some "mov [65535], word -32768" := by decide

theorem test_text_sized : firstLine [0xC6, 0x07, 0x00] = some "mov [bx], byte 0" := by decide

/-- 43_addressing_resolution.md R175, R176: `ah` is the high half of `ax`; a sum wraps at 2^16. -/
theorem test_denotation :
    halfOf 4 = (0, true) ∧ halfOf 3 = (3, false) ∧
    denotedOffset [0, 0, 0, 0xFFFF, 0, 0, 2, 0] (.mem 0 (some 3)) = some 4 := by decide

/-! ### Witnesses: for each obligation with hypotheses, states and operands that meet all of them, clause by clause -/

/-- A state inside an instruction: `C6 46` consumed, a displacement and an immediate byte pending. -/
def inside : State := after 2 [0xC6, 0x46, 0xFE, 0x80]

/-- A state at the end of its run over the empty buffer. -/
def ended : State := after 1 []

/-- The invariant holds in the middle of an instruction. -/
theorem inside_inv : RunInv inside where
  buffer := ⟨by decide, by decide⟩
  position := by decide
  accumulator :=
    ⟨⟨rfl, rfl, ⟨rfl, rfl, .memoryByteDisplacement, 6, rfl, rfl, by decide, by decide, .inl ⟨rfl, rfl⟩⟩, rfl,
        false, rfl, .inl ⟨rfl, rfl⟩⟩, ⟨0, rfl, rfl⟩, by decide⟩
  outcome := rfl
  results := ⟨[], rfl⟩

theorem ended_inv : RunInv ended where
  buffer := ⟨rfl, by decide⟩
  position := by decide
  accumulator := ⟨rfl, rfl⟩
  outcome := rfl
  results := ⟨[], rfl⟩

theorem inside_tiles : RecordsTile inside := ⟨[], rfl, rfl⟩

theorem witness_ResetRequestStartsNewRun : (assertReset inside).rst = true := rfl

theorem witness_BufferIsLoadedUnderReset : inside.rst = false ∧ (assertReset inside).rst = true := ⟨rfl, rfl⟩

/-- The last byte, and the end. -/
theorem witness_ReadByteDeliversByteAtPosition :
    (after 3 [0xC6, 0x46, 0xFE, 0x80]).pos < 4 ∧ (after 3 [0xC6, 0x46, 0xFE, 0x80]).len = 4 ∧
    (readByte (after 3 [0xC6, 0x46, 0xFE, 0x80])).1 = some 0x80 ∧ ¬ ended.pos < ended.len ∧ (readByte ended).1 = none := by decide

/-- Exactly two bytes left, and one. -/
theorem witness_ReadWordIsLittleEndianAndWhole :
    inside.pos + 2 = inside.len ∧ (readWord inside).1 = some 0x80FE ∧
    (after 3 [0xC6, 0x46, 0xFE, 0x80]).pos + 1 = (after 3 [0xC6, 0x46, 0xFE, 0x80]).len ∧
    (readWord (after 3 [0xC6, 0x46, 0xFE, 0x80])).1 = none := by decide

theorem witness_ExhaustedExactlyAtTheEnd :
    inside.pos ≤ inside.len ∧ isExhausted inside = false ∧ ended.pos ≤ ended.len ∧ isExhausted ended = true := by decide

theorem witness_BufferIsNeverWritten :
    (∃ t, step inside = .next t) ∧ (∃ t, exec (.movRegImm false 0 0) inside = .next t) := ⟨⟨_, rfl⟩, ⟨_, rfl⟩⟩

theorem witness_CursorMovesForwardByItsReads :
    inside.rst = false ∧ inside.pos ≤ inside.len ∧ ∃ t, step inside = .next t ∧ t.pos = inside.pos + 1 :=
  ⟨rfl, by decide, _, rfl, rfl⟩

theorem witness_PositionFitsItsRegister : RunInv ended ∧ LengthFits ended ∧ ∃ t, step ended = .next t :=
  ⟨ended_inv, Nat.two_pow_pos _, _, rfl⟩

theorem witness_ModeByteHasOneDecomposition : (1 < 4) ∧ (1 < 8) ∧ (6 < 8) ∧ (0x4E : Byte).toNat = 1 * 64 + 1 * 8 + 6 := by decide

/-- The index 6 on both sides of its rule. -/
theorem witness_ModeAndRmGiveAddressingMode :
    modeOf 0 5 = (.memoryNoDisplacement, .zero) ∧ modeOf 0 6 = (.directAddress, .two) ∧ modeOf 0 7 = (.memoryNoDisplacement, .zero) ∧
    modeOf 1 6 = (.memoryByteDisplacement, .one) ∧ modeOf 2 6 = (.memoryWordDisplacement, .two) ∧
    modeOf 3 6 = (.registerDirect, .zero) := by decide

/-- Both ends of each range of R75. -/
theorem witness_FirstByteDecidesFamily :
    classify 0x88 = .registerOrMemoryToRegister ∧ classify 0x8B = .registerOrMemoryToRegister ∧
    classify 0xC6 = .immediateToRegisterOrMemory ∧ classify 0xC7 = .immediateToRegisterOrMemory ∧
    classify 0xB0 = .immediateToRegister ∧ classify 0xBF = .immediateToRegister ∧ classify 0x87 = .unrecognized ∧
    classify 0x8C = .unrecognized ∧ classify 0xAF = .unrecognized ∧ classify 0xC0 = .unrecognized ∧
    classify 0xC5 = .unrecognized ∧ classify 0xC8 = .unrecognized := by decide

theorem witness_DecodeAfterEncode : WellFormed (.movRmImmMemoryByteDisplacement false 6 (-128) 127) = true := by decide

theorem witness_EncodeAfterDecode : ∃ i rest, decode [0x8B, 0x4E, 0x02, 0x90] = .ok (i, rest) := ⟨_, _, rfl⟩

/-- The longest such bytes, and the shortest, which also begin a rejected encoding. -/
theorem witness_TruncatedBytesArePrefixes :
    decode [0xC7, 0x85, 0x01, 0x00, 0x05] = .error (.truncated 4) ∧ decode [0xC6] = .error (.truncated 1) := by decide

theorem witness_EndOfStreamEndsRun :
    (powerOn []).rst = false ∧ (powerOn []).phase = .awaitingOpcodeByte ∧ (powerOn []).len ≤ (powerOn []).pos := by decide

/-- The first and the last byte of each clause. -/
theorem witness_OpcodeByteEstablishesFields :
    (∀ b ∈ ([0x88, 0x8B, 0xC6, 0xC7, 0xB0, 0xBF] : List Byte),
      (powerOn [b]).rst = false ∧ (powerOn [b]).phase = .awaitingOpcodeByte ∧ (powerOn [b]).pos < (powerOn [b]).len ∧
      Memory.read (powerOn [b]).mem (powerOn [b]).pos = b) ∧
    (0x88 ≤ (0x8B : Byte).toNat ∧ (0x8B : Byte).toNat ≤ 0x8B) ∧ (0xC7 : Byte).toNat = 0xC7 ∧
    (0xB0 ≤ (0xBF : Byte).toNat ∧ (0xBF : Byte).toNat ≤ 0xBF) := by decide

theorem witness_UnrecognizedFirstByteEndsRun :
    (powerOn [0x8C]).rst = false ∧ (powerOn [0x8C]).phase = .awaitingOpcodeByte ∧ (powerOn [0x8C]).pos < (powerOn [0x8C]).len ∧
    Memory.read (powerOn [0x8C]).mem 0 = 0x8C ∧ classify 0x8C = .unrecognized := by decide

/-- Each family, with the mode byte at its last offset. -/
theorem witness_ModeByteEstablishesFields :
    ((after 1 [0x8B, 0x06]).rst = false ∧ (after 1 [0x8B, 0x06]).phase = .awaitingModeByte ∧ (after 1 [0x8B, 0x06]).pos < 2 ∧
      (after 1 [0x8B, 0x06]).len = 2 ∧ Memory.read (after 1 [0x8B, 0x06]).mem (after 1 [0x8B, 0x06]).pos = 0x06 ∧
      (after 1 [0x8B, 0x06]).acc.opcodeFamily = some .registerOrMemoryToRegister ∧ (after 1 [0x8B, 0x06]).acc.wide = some true) ∧
    ((after 1 [0xC6, 0xC7]).phase = .awaitingModeByte ∧ (after 1 [0xC6, 0xC7]).rst = false ∧ (after 1 [0xC6, 0xC7]).pos < 2 ∧
      (after 1 [0xC6, 0xC7]).len = 2 ∧ Memory.read (after 1 [0xC6, 0xC7]).mem (after 1 [0xC6, 0xC7]).pos = 0xC7 ∧
      (after 1 [0xC6, 0xC7]).acc.opcodeFamily = some .immediateToRegisterOrMemory ∧
      (after 1 [0xC6, 0xC7]).acc.wide = some false ∧ (0xC7 : Byte).toNat / 8 % 8 = 0) := by decide

theorem witness_InvalidModeByteEndsRun :
    (after 1 [0xC6, 0x08]).rst = false ∧ (after 1 [0xC6, 0x08]).phase = .awaitingModeByte ∧
    (after 1 [0xC6, 0x08]).pos < (after 1 [0xC6, 0x08]).len ∧
    Memory.read (after 1 [0xC6, 0x08]).mem (after 1 [0xC6, 0x08]).pos = 0x08 ∧
    (after 1 [0xC6, 0x08]).acc.opcodeFamily = some .immediateToRegisterOrMemory ∧ (after 1 [0xC6, 0x08]).acc.wide = some false ∧
    (after 1 [0xC6, 0x08]).acc.instrStart = some 0 ∧ (0x08 : Byte).toNat / 8 % 8 ≠ 0 := by decide

/-- Exactly the displacement's bytes are left. -/
theorem witness_DisplacementIsGathered :
    ((after 2 [0x8B, 0x40, 0xFF]).rst = false ∧ (after 2 [0x8B, 0x40, 0xFF]).phase = .awaitingDisplacementOrImmediate ∧
      (after 2 [0x8B, 0x40, 0xFF]).acc.pendingBytes.disp = .one ∧ (after 2 [0x8B, 0x40, 0xFF]).pos + 1 = 3 ∧
      (after 2 [0x8B, 0x40, 0xFF]).len = 3) ∧
    ((after 2 [0x8B, 0x80, 0, 0x80]).rst = false ∧
      (after 2 [0x8B, 0x80, 0, 0x80]).phase = .awaitingDisplacementOrImmediate ∧
      (after 2 [0x8B, 0x80, 0, 0x80]).acc.pendingBytes.disp = .two ∧ (after 2 [0x8B, 0x80, 0, 0x80]).pos + 2 = 4 ∧
      (after 2 [0x8B, 0x80, 0, 0x80]).len = 4) := by decide

theorem witness_ImmediateIsGathered :
    ((after 1 [0xB0, 0x85]).rst = false ∧ (after 1 [0xB0, 0x85]).phase = .awaitingDisplacementOrImmediate ∧
      (after 1 [0xB0, 0x85]).acc.pendingBytes.disp = .zero ∧ (after 1 [0xB0, 0x85]).acc.pendingBytes.imm = .one ∧
      (after 1 [0xB0, 0x85]).pos + 1 = (after 1 [0xB0, 0x85]).len) ∧
    ((after 1 [0xB8, 0x85, 0xFF]).rst = false ∧ (after 1 [0xB8, 0x85, 0xFF]).phase = .awaitingDisplacementOrImmediate ∧
      (after 1 [0xB8, 0x85, 0xFF]).acc.pendingBytes.disp = .zero ∧ (after 1 [0xB8, 0x85, 0xFF]).acc.pendingBytes.imm = .two ∧
      (after 1 [0xB8, 0x85, 0xFF]).pos + 2 = (after 1 [0xB8, 0x85, 0xFF]).len) := by decide

/-- The five ways a field is not whole, each with the most bytes it may have. -/
theorem witness_UnfinishedInstructionEndsRun :
    (∀ s ∈ [after 1 [0x8B], after 2 [0x8B, 0x4E], after 2 [0x8B, 0x80, 0x34], after 1 [0xB0], after 1 [0xB9, 0x0C]],
      s.rst = false ∧ s.acc.instrStart = some 0) ∧
    ((after 1 [0x8B]).phase = .awaitingModeByte ∧ (after 1 [0x8B]).len = (after 1 [0x8B]).pos) ∧
    ((after 2 [0x8B, 0x4E]).phase = .awaitingDisplacementOrImmediate ∧ (after 2 [0x8B, 0x4E]).acc.pendingBytes.disp = .one ∧
      (after 2 [0x8B, 0x4E]).len = (after 2 [0x8B, 0x4E]).pos) ∧
    ((after 2 [0x8B, 0x80, 0x34]).phase = .awaitingDisplacementOrImmediate ∧
      (after 2 [0x8B, 0x80, 0x34]).acc.pendingBytes.disp = .two ∧
      (after 2 [0x8B, 0x80, 0x34]).len = (after 2 [0x8B, 0x80, 0x34]).pos + 1) ∧
    ((after 1 [0xB0]).phase = .awaitingDisplacementOrImmediate ∧ (after 1 [0xB0]).acc.pendingBytes.disp = .zero ∧
      (after 1 [0xB0]).acc.pendingBytes.imm = .one ∧ (after 1 [0xB0]).len = (after 1 [0xB0]).pos) ∧
    ((after 1 [0xB9, 0x0C]).phase = .awaitingDisplacementOrImmediate ∧ (after 1 [0xB9, 0x0C]).acc.pendingBytes.disp = .zero ∧
      (after 1 [0xB9, 0x0C]).acc.pendingBytes.imm = .two ∧ (after 1 [0xB9, 0x0C]).len = (after 1 [0xB9, 0x0C]).pos + 1) := by
  decide

/-- After one record, at the end of the buffer. -/
def lastRecord : State := after 3 [0x89, 0xD8]

theorem witness_EndOfStreamOnlyBetweenInstructions :
    RunInv lastRecord ∧ RecordsTile lastRecord ∧ lastRecord.rst = false ∧ lastRecord.err = none ∧
    ∃ t, step lastRecord = .next t ∧ t.err = some .endOfStream :=
  ⟨⟨⟨by decide, by decide⟩, by decide, rfl, rfl, [_], rfl⟩,
    ⟨[_], rfl, rfl, by decide, by decide, rfl⟩, rfl, rfl, _, rfl, rfl⟩

theorem witness_TerminalPhasesStay :
    (ended.rst = false ∧ ended.phase = .done) ∧ ((after 1 [0x90]).rst = false ∧ (after 1 [0x90]).phase = .faulted) := by decide

theorem witness_StepRunsTheDecidedInstruction :
    ((after 2 [0x89, 0xD8]).rst = false ∧ (after 2 [0x89, 0xD8]).phase = .complete ∧
      ∃ i, (after 2 [0x89, 0xD8]).acc.gathered = .ok i) ∧
    ((powerOn [0x90]).rst = false ∧ (powerOn [0x90]).phase = .awaitingOpcodeByte ∧ (powerOn [0x90]).byteAt 0 = some 0x90 ∧
      classify 0x90 = .unrecognized) ∧
    ((after 1 [0xC7, 0x08]).rst = false ∧ (after 1 [0xC7, 0x08]).phase = .awaitingModeByte ∧
      (after 1 [0xC7, 0x08]).byteAt (after 1 [0xC7, 0x08]).pos = some 0x08 ∧
      (after 1 [0xC7, 0x08]).acc.opcodeFamily = some .immediateToRegisterOrMemory ∧
      (after 1 [0xC7, 0x08]).acc.wide = some true ∧ regBits 0x08 ≠ 0#3) :=
  ⟨⟨rfl, rfl, .movRmRegRegisterDirect true 3 0, rfl⟩, by decide, by decide⟩

/-- Between two instructions of a run: the second starts at offset 2. -/
def second : State := after 3 [0x89, 0xD8, 0xC7, 0x06, 0x00, 0x10, 0xFF, 0xFF]

/-- A MOV, and a rejected row. -/
theorem witness_BytesAtPositionAreRun :
    (BetweenInstructions second ∧
      ∃ i rest, decode (second.bytesFrom second.pos) = .ok (i, rest) ∧ second.pos = 2 ∧ operandsOf i ≠ none) ∧
    (BetweenInstructions (powerOn [0xC6, 0xFF]) ∧
      ∃ i rest, decode ((powerOn [0xC6, 0xFF]).bytesFrom (powerOn [0xC6, 0xFF]).pos) = .ok (i, rest) ∧ operandsOf i = none) :=
  ⟨⟨⟨rfl, rfl, rfl⟩, .movRmImmDirectAddress true 4096 (-1), [], rfl, rfl, by decide⟩,
    ⟨⟨rfl, rfl, rfl⟩, .invalid false 0xFF, [], rfl, rfl⟩⟩

theorem witness_WholeMovEmitsItsRecord :
    BetweenInstructions second ∧ ∃ i rest dst src, decode (second.bytesFrom second.pos) = .ok (i, rest) ∧
      operandsOf i = some (dst, src) :=
  ⟨⟨rfl, rfl, rfl⟩, .movRmImmDirectAddress true 4096 (-1), [], .direct 4096, .imm .word (-1) true, rfl, rfl⟩

theorem witness_WholeRejectionEndsRun :
    BetweenInstructions (powerOn [0x90]) ∧ decode ((powerOn [0x90]).bytesFrom 0) = .ok (.unrecognized 0x90, []) ∧
    BetweenInstructions (powerOn [0xC6, 0xFF]) ∧ decode ((powerOn [0xC6, 0xFF]).bytesFrom 0) = .ok (.invalid false 0xFF, []) :=
  ⟨⟨rfl, rfl, rfl⟩, rfl, ⟨rfl, rfl, rfl⟩, rfl⟩

theorem witness_PlacedWordIsRunNext :
    Memory.wf inside.mem = true ∧ decodeTableWord 16 0xC688 = some (.invalid false 0x88) ∧
    decodeTableWord 16 0x8806 = some (.movRmRegDirectAddress false 0 0) := by decide

/-- For a MOV meaning the start of the instruction is known. -/
theorem witness_MovRmRegEmitsRecord : inside.acc.instrStart = some 0 := rfl

theorem witness_MovRegRmEmitsRecord : (after 3 [0x8B, 0x4E, 0x02]).acc.instrStart = some 0 := rfl

theorem witness_MovRmImmEmitsRecord : (after 4 [0xC6, 0x46, 0xFE, 0x80]).acc.instrStart = some 0 := rfl

theorem witness_MovRegImmEmitsRecord : (after 2 [0xB0, 0x85]).acc.instrStart = some 0 := rfl

theorem witness_InvalidRaisesOutcome : (after 1 [0xC7, 0x08]).acc.instrStart = some 0 := rfl

theorem witness_MovLeavesTheRest :
    operandsOf (.movRegImm false 0 0) ≠ none ∧ ∃ t, exec (.movRegImm false 0 0) inside = .next t := ⟨by decide, _, rfl⟩

theorem witness_RejectionLeavesTheRest :
    operandsOf (.invalid false 0x08) = none ∧ (∃ t, exec (.invalid false 0x08) inside = .next t) ∧
    operandsOf (.unrecognized 0x90) = none ∧ (∃ t, exec (.unrecognized 0x90) inside = .next t) :=
  ⟨rfl, ⟨_, rfl⟩, rfl, _, rfl⟩

theorem witness_InvariantIsKept : RunInv inside ∧ ∃ t, step inside = .next t := ⟨inside_inv, _, rfl⟩

theorem witness_InvariantGivesProgress : RunInv inside ∧ RunInv ended := ⟨inside_inv, ended_inv⟩

theorem witness_RecordsKeepTiling : RunInv inside ∧ RecordsTile inside ∧ ∃ t, step inside = .next t :=
  ⟨inside_inv, inside_tiles, _, rfl⟩

/-- A step that emits a record, one that emits an outcome, one in a terminal phase. -/
theorem witness_AtMostOneItemPerStep :
    (after 2 [0x89, 0xD8]).rst = false ∧ (∃ t, step (after 2 [0x89, 0xD8]) = .next t ∧ t.results ≠ []) ∧
    (powerOn []).rst = false ∧ (∃ t, step (powerOn []) = .next t ∧ t.results = [.outcome .endOfStream]) ∧
    ended.rst = false ∧ ended.phase.isTerminal = true ∧ ∃ t, step ended = .next t :=
  ⟨rfl, ⟨_, rfl, by decide⟩, rfl, ⟨_, rfl, rfl⟩, rfl, rfl, _, rfl⟩

/-- One step into each of the four outcomes; a truncation at the mode byte, at a field of one byte and at a field of two. -/
theorem witness_OutcomesAriseOnlyThere :
    ((powerOn []).err = none ∧ (powerOn []).rst = false ∧ ∃ t, step (powerOn []) = .next t ∧ t.err = some .endOfStream) ∧
    ((after 1 [0x8B]).err = none ∧ (after 1 [0x8B]).rst = false ∧
      ∃ t, step (after 1 [0x8B]) = .next t ∧ t.err = some (.truncatedInstruction 1 0)) ∧
    ((after 1 [0xB0]).err = none ∧ (after 1 [0xB0]).rst = false ∧
      ∃ t, step (after 1 [0xB0]) = .next t ∧ t.err = some (.truncatedInstruction 1 0)) ∧
    ((after 2 [0x8B, 0x80, 0x34]).err = none ∧ (after 2 [0x8B, 0x80, 0x34]).rst = false ∧
      ∃ t, step (after 2 [0x8B, 0x80, 0x34]) = .next t ∧ t.err = some (.truncatedInstruction 2 0)) ∧
    ((powerOn [0xC8]).err = none ∧ (powerOn [0xC8]).rst = false ∧
      ∃ t, step (powerOn [0xC8]) = .next t ∧ t.err = some (.unrecognizedOpcode 0xC8 0)) ∧
    ((after 1 [0xC6, 0xFF]).err = none ∧ (after 1 [0xC6, 0xFF]).rst = false ∧
      ∃ t, step (after 1 [0xC6, 0xFF]) = .next t ∧ t.err = some (.invalidFieldCombination 0xFF 1 0)) :=
  ⟨⟨rfl, rfl, _, rfl, rfl⟩, ⟨rfl, rfl, _, rfl, rfl⟩, ⟨rfl, rfl, _, rfl, rfl⟩, ⟨rfl, rfl, _, rfl, rfl⟩, ⟨rfl, rfl, _, rfl, rfl⟩,
    ⟨rfl, rfl, _, rfl, rfl⟩⟩

theorem witness_OutcomeIsFinal :
    RunInv ended ∧ ended.rst = false ∧ ended.err = some .endOfStream ∧ ∃ t, step ended = .next t :=
  ⟨ended_inv, rfl, rfl, _, rfl⟩

theorem witness_AddressingModeIsWrittenOnce :
    (inside.rst = false ∧ inside.phase ≠ .awaitingModeByte ∧ inside.phase ≠ .complete ∧ ∃ t, step inside = .next t) ∧
    ((after 2 [0x89, 0xD8]).phase = .complete ∧ ∃ t, step (after 2 [0x89, 0xD8]) = .next t) ∧
    (∃ t, step (powerOn [0x89]) = .next t ∧ t.phase = .awaitingModeByte) ∧
    ((after 3 [0x8B, 0x1E, 0x82, 0x0D]).acc.displacement = some 3458 ∧
      (after 3 [0x8B, 0x1E, 0x82, 0x0D]).acc.addressingMode = some .directAddress) ∧
    ((after 2 [0x8B, 0x1B]).acc.rmField = some 3 ∧ (after 2 [0x8B, 0x1B]).acc.addressingMode = some .memoryNoDisplacement) ∧
    ((after 2 [0x89, 0xD8]).acc.rmField = some 0 ∧ (after 2 [0x89, 0xD8]).acc.addressingMode = some .registerDirect) ∧
    ((after 3 [0x8B, 0x4E, 0x02]).acc.rmField = some 6 ∧ (after 3 [0x8B, 0x4E, 0x02]).acc.displacement = some 2 ∧
      (after 3 [0x8B, 0x4E, 0x02]).acc.addressingMode = some .memoryByteDisplacement) ∧
    ((after 3 [0x8B, 0x80, 0x34, 0x12]).acc.rmField = some 0 ∧ (after 3 [0x8B, 0x80, 0x34, 0x12]).acc.displacement = some 0x1234 ∧
      (after 3 [0x8B, 0x80, 0x34, 0x12]).acc.addressingMode = some .memoryWordDisplacement) :=
  ⟨⟨rfl, by decide, by decide, _, rfl⟩, ⟨rfl, _, rfl⟩, ⟨_, rfl, rfl⟩, by decide, by decide, by decide, by decide, by decide⟩

/-- After a record, and after a reset. -/
theorem witness_AccumulatorIsClearedBetweenInstructions :
    (∃ t, step (after 2 [0x89, 0xD8]) = .next t ∧ t.phase = .awaitingOpcodeByte ∧ (after 2 [0x89, 0xD8]).rst = false) ∧
    (∃ t, step (assertReset inside) = .next t ∧ t.phase = .awaitingOpcodeByte) :=
  ⟨⟨_, rfl, rfl, rfl⟩, _, rfl, rfl⟩

/-- A register and an immediate operand of one width. -/
theorem witness_EmittedOperandsShareWidth :
    ∃ t, step (after 2 [0xB0, 0x85]) = .next t ∧
      t.results = (after 2 [0xB0, 0x85]).results ++
        [.instruction { mnemonic := .mov, destinationOperand := .reg .byte 0, sourceOperand := .imm .byte (-123) false,
                        start := 0, length := 2 }] ∧
      operandWidth (.reg .byte 0) = some .byte ∧ operandWidth (.imm .byte (-123) false) = some .byte :=
  ⟨_, rfl, rfl, rfl, rfl⟩

/-- The same place of a run with other items before it. -/
theorem witness_EarlierResultsDoNotMatter :
    let u : State := { inside with results := [.outcome .endOfStream], cur := none }
    u.mem = inside.mem ∧ u.len = inside.len ∧ u.pos = inside.pos ∧ u.phase = inside.phase ∧ u.acc = inside.acc ∧
    inside.rst = false ∧ u.rst = false ∧ ∃ s', stepMany 3 inside = .next s' :=
  ⟨rfl, rfl, rfl, rfl, rfl, rfl, rfl, _, rfl⟩

theorem witness_RunsEnd : RunInv inside ∧ inside.rst = false := ⟨inside_inv, rfl⟩

theorem witness_InstancesAreIndependent :
    (∃ a, runSchedule [0, 1, 0] [inside, ended] = .next a) ∧ [inside, ended][0]? = some inside ∧ [inside, ended][1]? = some ended :=
  ⟨⟨_, rfl⟩, rfl, rfl⟩

theorem witness_WidthSelectsTheRegisterTable :
    operandsOf ((RmForm.registerDirect 7).movRegister .sourceIsRegister false 0) = some (.reg .byte 7, .reg .byte 0) ∧
    operandWidth (.reg .byte 7) = some .byte ∧ operandWidth (.reg .byte 0) = some .byte := ⟨rfl, rfl, rfl⟩

/-- A base expression of two parts, the last of them, and one of one part, the first of them: `bp + di` and `si`. -/
theorem witness_MemoryOperandDenotesItsSum :
    (3 : Index).toNat < 4 ∧ denotedOffset [1, 2, 3, 4, 5, 6, 7, 8] (.mem 3 (some (-1))) = some 13 ∧
    4 ≤ (4 : Index).toNat ∧ denotedOffset [1, 2, 3, 4, 5, 6, 7, 8] (.mem 4 none) = some 7 ∧
    denotedOffset [] (.direct 0xFFFF) = some 0xFFFF := by decide

/-- Both unused ranges of codes at their first value. -/
theorem witness_CodesTellValuesApart : 6 ≤ (6 : BitVec 3).toNat ∧ 5 ≤ (5 : BitVec 3).toNat := by decide

end Sys2Proof.Tests
end

namespace Sys2Proof.Machine

/-! ### Family 20: the buffer and the cursor -/

/-! #### What the cursor's updates change -/

theorem setCursor_sameButCursor (request : CursorRequest) (response : CursorResponse) (s : State) :
    sameButCursor (setCursor request response s) s := rfl

theorem consumeByte_sameButCursor (b : Byte) (s : State) :
    sameButCursor (consumeByte b s) { s with pos := s.pos + 1 } := rfl

theorem consumeWord_sameButCursor (v : Word) (s : State) :
    sameButCursor (consumeWord v s) { s with pos := s.pos + 2 } := rfl

theorem toNat_wordAtPos (s : State) :
    (wordAtPos s).toNat = (Memory.read s.mem (s.pos + 1)).toNat * 256 + (Memory.read s.mem s.pos).toNat :=
  toNat_wordOf _ _

/-! #### What leaves the buffer alone -/

/-- Every state that R110's table leads to is made of updates that keep `mem` and `len`. -/
theorem Transition.keeps_buffer {s t : State} (h : Transition s t) : t.mem = s.mem ∧ t.len = s.len := by
  cases h <;> simp

/-- A meaning is a completion or a raise after one consumed byte, and both keep `mem` and `len`. -/
theorem exec_keeps_buffer {i : Instr} {s t : State} (h : exec i s = .next t) : t.mem = s.mem ∧ t.len = s.len := by
  obtain ⟨operands, ho⟩ | ⟨w, b, rfl⟩ | ⟨b, rfl⟩ := instr_cases i
  · rw [exec_of_operands ho] at h
    obtain ⟨start, -, rfl⟩ := complete_next.1 h
    simp
  · obtain ⟨start, -, rfl⟩ := execInvalid_next.1 h
    simp
  · obtain rfl := execUnrecognized_next.1 h
    simp

/-! #### The obligations -/

/-- Settles O8: by R110's table for the steps, and by the three shapes of a meaning for `exec`. -/
theorem bufferIsNeverWritten : Obligations.BufferIsNeverWritten :=
  ⟨fun _ _ h => (step_transition h).keeps_buffer, fun _ _ _ h => exec_keeps_buffer h⟩

/-- Settles O5, by the two cases of R43. -/
theorem readByteDeliversByteAtPosition : Obligations.ReadByteDeliversByteAtPosition := by
  intro s
  constructor
  · intro hlt
    rw [readByte_lt hlt]
    exact ⟨rfl, consumeByte_sameButCursor _ s⟩
  · intro hend
    rw [readByte_end hend]
    exact ⟨rfl, setCursor_sameButCursor _ _ s⟩

/-- Settles O6, by the two cases of R44; the model states the bound as `2 ≤ LEN - pos`. -/
theorem readWordIsLittleEndianAndWhole : Obligations.ReadWordIsLittleEndianAndWhole := by
  intro s
  constructor
  · intro htwo
    rw [readWord_lt (by omega)]
    exact ⟨wordAtPos s, rfl, toNat_wordAtPos s, consumeWord_sameButCursor _ s⟩
  · intro hshort
    rw [readWord_end (by omega)]
    exact ⟨rfl, setCursor_sameButCursor _ _ s⟩

end Sys2Proof.Machine

namespace Sys2Proof

/-! ### Family 40: the field extractor -/

/-! #### The fields of the mode byte, as masks and as numbers -/

/-- A field of bits is the masked and shifted byte whenever the mask, shifted down, is `len` ones. -/
theorem toNat_extractLsb'_eq_mask (b : Byte) {start len mask : Nat} (hmask : mask >>> start = 2 ^ len - 1) :
    (b.extractLsb' start len).toNat = (b.toNat &&& mask) >>> start := by
  rw [BitVec.extractLsb'_toNat, Nat.shiftRight_and_distrib, hmask, Nat.and_two_pow_sub_one_eq_mod]

theorem toNat_modeBits (b1 : Byte) : (modeBits b1).toNat = b1.toNat / 64 := by
  have := b1.isLt
  simp only [modeBits, BitVec.extractLsb'_toNat, Nat.shiftRight_eq_div_pow]
  omega

theorem toNat_regBits (b1 : Byte) : (regBits b1).toNat = b1.toNat / 8 % 8 := by
  simp only [regBits, BitVec.extractLsb'_toNat, Nat.shiftRight_eq_div_pow, Nat.reducePow]

theorem toNat_rmBits (b1 : Byte) : (rmBits b1).toNat = b1.toNat % 8 := by
  simp only [rmBits, BitVec.extractLsb'_toNat, Nat.shiftRight_zero, Nat.reducePow]

/-! #### The obligations -/

/-- Settles O11: the masks are the bit ranges of R95, and the fields are the digits of the byte over 64, 8 and 1. -/
theorem modeByteHasOneDecomposition : Obligations.ModeByteHasOneDecomposition := by
  intro b1
  refine ⟨toNat_extractLsb'_eq_mask b1 rfl, toNat_extractLsb'_eq_mask b1 rfl, toNat_extractLsb'_eq_mask b1 rfl, ?_, ?_⟩
  · rw [toNat_modeBits, toNat_regBits, toNat_rmBits]
    omega
  · intro mod reg rm _ hreg hrm hb1
    rw [toNat_modeBits, toNat_regBits, toNat_rmBits, hb1]
    omega

/-- Settles O12: each row of R97 is the model's own equation at that `mod`. -/
theorem modeAndRmGiveAddressingMode : Obligations.ModeAndRmGiveAddressingMode := by
  intro mod rm
  refine ⟨fun hmod hrm => ?_, fun hmod hrm => ?_, fun hmod => ?_, fun hmod => ?_, fun hmod => ?_⟩
  · obtain rfl : mod = 0#2 := BitVec.eq_of_toNat_eq hmod
    exact modeOf_zero (mt (congrArg BitVec.toNat) hrm)
  · obtain rfl : mod = 0#2 := BitVec.eq_of_toNat_eq hmod
    obtain rfl : rm = 6#3 := BitVec.eq_of_toNat_eq hrm
    exact modeOf_zero_six
  · obtain rfl : mod = 1#2 := BitVec.eq_of_toNat_eq hmod
    exact modeOf_one rm
  · obtain rfl : mod = 2#2 := BitVec.eq_of_toNat_eq hmod
    exact modeOf_two rm
  · obtain rfl : mod = 3#2 := BitVec.eq_of_toNat_eq hmod
    exact modeOf_three rm

end Sys2Proof

namespace Sys2Proof.Machine

/-! ### Family 41: the decoder state machine -/

/-! #### States that differ in the cursor ports only -/

theorem sameButCursor.pos_eq {t u : State} (h : sameButCursor t u) : t.pos = u.pos := by
  have hpos := congrArg State.pos h
  exact hpos

theorem sameButCursor.results_eq {t u : State} (h : sameButCursor t u) : t.results = u.results := by
  have hresults := congrArg State.results h
  exact hresults

/-! #### A terminal phase is the end of the run -/

theorem step_terminal {s : State} (hr : s.rst = false) (hp : s.phase.isTerminal = true) :
    step s = .next (idleCursor s) :=
  step_of_transition (.idle hr hp)

theorem stepMany_succ_of_step {s t : State} (h : step s = .next t) (n : Nat) : stepMany (n + 1) s = stepMany n t := by
  rw [stepMany, h]

/-- R121 along a run: each step from a terminal phase only idles the cursor ports. -/
theorem stepMany_terminal {n : Nat} {s u : State} (h : stepMany n s = .next u) (hr : s.rst = false)
    (hp : s.phase.isTerminal = true) : sameButCursor u s := by
  induction n generalizing s with
  | zero =>
    cases h
    rfl
  | succ n ih =>
    rw [stepMany_succ_of_step (step_terminal hr hp)] at h
    exact ih (s := idleCursor s) h hr hp

/-! #### The signed value of a gathered field -/

/-- Sign extension keeps the signed value (R98). -/
theorem toInt_fromByte (b : Byte) : (fromByte b).toInt = b.toInt :=
  BitVec.toInt_signExtend_of_le (by decide)

theorem toInt_wordOf (lo hi : Byte) : (wordOf lo hi).toInt = signedPair lo hi := by
  rw [BitVec.toInt_eq_toNat_cond, toNat_wordOf, signedPair]
  split <;> split <;> omega

/-- The two bytes at the position, low-order byte first, stored as they are and read in two's complement (R99). -/
theorem toInt_fromWord_wordAtPos (s : State) :
    (fromWord (wordAtPos s)).toInt = signedPair (Memory.read s.mem s.pos) (Memory.read s.mem (s.pos + 1)) :=
  toInt_wordOf _ _

/-! #### The step that gathers a displacement -/

/-- With no displacement byte pending, only the immediate keeps the gathering going (R117). -/
theorem gatheringPhase_zero (imm : ByteCount) :
    gatheringPhase .zero imm = if imm = .zero then .complete else .awaitingDisplacementOrImmediate := by
  simp only [gatheringPhase, true_and]

/-- What R117 writes, for a displacement of either size. -/
theorem storeDisplacement_consumeField_sameButCursor (two : Bool) (v : Word) (s : State) :
    sameButCursor (storeDisplacement v (consumeField two s))
      { s with
        pos := s.pos + fieldBytes two
        phase := if s.acc.pendingBytes.imm = .zero then .complete else .awaitingDisplacementOrImmediate
        acc := { s.acc with
          displacement := some v
          pendingBytes := { s.acc.pendingBytes with disp := .zero } } } := by
  rw [← gatheringPhase_zero]
  cases two <;> rfl

/-! #### The obligations -/

/-- Settles O21: the step is the transition of R113, and the phase it leaves is terminal. -/
theorem unrecognizedFirstByteEndsRun : Obligations.UnrecognizedFirstByteEndsRun := by
  intro s b0 hr hp hlt hb hf
  refine ⟨_, step_of_transition (.unrecognized b0 hr hp hlt hb.symm hf), rfl, ?_⟩
  intro n u hu
  have hsame := stepMany_terminal hu hr rfl
  exact ⟨hsame.pos_eq, hsame.results_eq⟩

/-- Settles O24: both sizes are the one transition of R117, and differ in the read and in the field's signed value. -/
theorem displacementIsGathered : Obligations.DisplacementIsGathered := by
  intro s hr hp
  constructor
  · intro hd hone
    have hstep := step_of_transition (.displacement false hr hp hd (Nat.le_sub_of_add_le' hone))
    exact ⟨_, _, hstep, toInt_fromByte _, rfl, storeDisplacement_consumeField_sameButCursor false _ s⟩
  · intro hd htwo
    have hstep := step_of_transition (.displacement true hr hp hd (Nat.le_sub_of_add_le' htwo))
    exact ⟨_, _, hstep, toInt_fromWord_wordAtPos s, rfl, storeDisplacement_consumeField_sameButCursor true _ s⟩

end Sys2Proof.Machine

namespace Sys2Proof.Machine

/-! ### Family 43: addressing and register resolution -/

/-! #### The register tables (R160, R161, R163) -/

theorem regName_true (i : Index) : regName true i = reg16Table.getD i.toNat "" := rfl

theorem regName_false (i : Index) : regName false i = reg8Table.getD i.toNat "" := rfl

/-- Every 3-bit index has an entry in a table of eight, so the default of `tableName` is never taken (log 15). -/
theorem tableName_mem {table : List String} (hlength : table.length = 8) (i : Index) : tableName table i ∈ table := by
  have hi : i.toNat < table.length := hlength ▸ i.isLt
  rw [tableName, List.getD_eq_getElem table "" hi]
  exact List.getElem_mem hi

theorem regName_true_mem (i : Index) : regName true i ∈ reg16Table := tableName_mem rfl i

theorem regName_false_mem (i : Index) : regName false i ∈ reg8Table := tableName_mem rfl i

theorem registerTables_disjoint : reg16Table.Disjoint reg8Table :=
  List.disjoint_iff_ne.2 (by decide)

/-- The text of a register operand is the name its own width selects (R163, R172). -/
theorem operandText_reg_widthOf (wide : Bool) (i : Index) : operandText (.reg (widthOf wide) i) = regName wide i := by
  cases wide <;> rfl

/-! #### The width an instruction's operands carry (R163, R164, R169) -/

/-- The operands of an instruction are assigned by one of the three families of R170. -/
theorem operandsOf_cases {i : Instr} {operands : Operand × Operand} (h : operandsOf i = some operands) :
    (∃ d wide reg rm, operands = registerMoveOperands d wide reg rm) ∨
    (∃ wide rm imm, operands = immediateToRmOperands wide rm imm) ∨
    (∃ wide reg imm, operands = immediateToRegOperands wide reg imm) := by
  cases i with
  | movRmRegDirectAddress | movRmRegMemoryNoDisplacement | movRmRegMemoryByteDisplacement
  | movRmRegMemoryWordDisplacement | movRmRegRegisterDirect
  | movRegRmDirectAddress | movRegRmMemoryNoDisplacement | movRegRmMemoryByteDisplacement
  | movRegRmMemoryWordDisplacement | movRegRmRegisterDirect =>
    exact .inl ⟨_, _, _, _, (Option.some.inj h).symm⟩
  | movRmImmDirectAddress | movRmImmMemoryNoDisplacement | movRmImmMemoryByteDisplacement
  | movRmImmMemoryWordDisplacement | movRmImmRegisterDirect =>
    exact .inr (.inl ⟨_, _, _, (Option.some.inj h).symm⟩)
  | movRegImm => exact .inr (.inr ⟨_, _, _, (Option.some.inj h).symm⟩)
  | invalid | unrecognized => cases h

/-- An operand that carries the width selected by `wide`, or none. -/
def FitsWidth (wide : Bool) (operand : Operand) : Prop :=
  ∀ w, operandWidth operand = some w → w = widthOf wide

theorem fitsWidth_reg (wide : Bool) (reg : Index) : FitsWidth wide (.reg (widthOf wide) reg) :=
  fun _ hw => (Option.some.inj hw).symm

theorem fitsWidth_immOperand (wide : Bool) (imm : Word) (sized : Bool) : FitsWidth wide (immOperand wide imm sized) :=
  fun _ hw => (Option.some.inj hw).symm

/-- A memory operand carries no width, and a register operand that of `wide` (R165, R166). -/
theorem fitsWidth_otherOperand (wide : Bool) (rm : RmForm) : FitsWidth wide (otherOperand wide rm) := by
  cases rm with
  | registerDirect rm => exact fitsWidth_reg wide rm
  | directAddress | memoryNoDisplacement | memoryByteDisplacement | memoryWordDisplacement => exact nofun

/-- One `wide` serves both operands of an instruction (R163). -/
theorem operandsOf_fitsWidth {i : Instr} {dst src : Operand} (h : operandsOf i = some (dst, src)) :
    ∃ wide, FitsWidth wide dst ∧ FitsWidth wide src := by
  obtain ⟨d, wide, reg, rm, ho⟩ | ⟨wide, rm, imm, ho⟩ | ⟨wide, reg, imm, ho⟩ := operandsOf_cases h
  · cases d <;> cases ho
    · exact ⟨wide, fitsWidth_otherOperand wide rm, fitsWidth_reg wide reg⟩
    · exact ⟨wide, fitsWidth_reg wide reg, fitsWidth_otherOperand wide rm⟩
  · cases ho
    exact ⟨wide, fitsWidth_otherOperand wide rm, fitsWidth_immOperand wide imm _⟩
  · cases ho
    exact ⟨wide, fitsWidth_reg wide reg, fitsWidth_immOperand wide imm false⟩

/-! #### The obligations -/

/-- Settles O56: both registers of a move are named by its one `wide`, every operand that carries a width carries the one
it selects, and the two tables have no name in common. -/
theorem widthSelectsTheRegisterTable : Obligations.WidthSelectsTheRegisterTable := by
  refine ⟨fun i => ⟨regName_true i, regName_false i⟩, ?_, ?_, ?_⟩
  · intro wide reg rm d dst src h
    rw [rmForm_movRegister_operands] at h
    cases d <;> cases h
    · exact .inr ⟨operandText_reg_widthOf wide rm, operandText_reg_widthOf wide reg⟩
    · exact .inl ⟨operandText_reg_widthOf wide reg, operandText_reg_widthOf wide rm⟩
  · intro i dst src w w' h hdst hsrc
    obtain ⟨wide, hdstFits, hsrcFits⟩ := operandsOf_fitsWidth h
    exact (hdstFits w hdst).trans (hsrcFits w' hsrc).symm
  · intro i j
    exact List.disjoint_iff_ne.1 registerTables_disjoint _ (regName_true_mem i) _ (regName_false_mem j)

/-- Settles O54: a byte register is named by `REG8`, whose entries stand in that order. -/
theorem byteRegisterNamesAreCanonical : Obligations.ByteRegisterNamesAreCanonical :=
  fun i => (operandText_reg_widthOf false i).trans (regName_false i)

end Sys2Proof.Machine

namespace Sys2Proof.Machine

/-! ### Family 60: the outcomes of a run -/

/-! #### Where `EndOfStream` comes from -/

/-- Of R110's table only R111 records `EndOfStream`: the other transitions keep `err`, clear it, or record a fatal outcome. -/
theorem Transition.eq_endStream {s t : State} (h : Transition s t) (herr : s.err = none)
    (heos : t.err = some .endOfStream) :
    s.phase = .awaitingOpcodeByte ∧ ¬ s.pos < s.len ∧ t = endStream (setCursor .readByte .exhausted s) := by
  cases h with
  | endOfStream _ hp hend => exact ⟨hp, hend, rfl⟩
  | reset | opcodeByte | modeByte | displacement | immediate | completion | idle => simp [herr] at heos
  | unrecognized | invalid | truncatedAtMode | truncatedAtField => simp at heos

/-! #### What is known between two instructions of a run -/

theorem RunInv.acc_eq_neutral {s : State} (hinv : RunInv s) (hp : s.phase = .awaitingOpcodeByte) :
    s.acc = DecodeState.neutral := by
  have hacc := hinv.accumulator
  rwa [PhaseFits, hp] at hacc

theorem currentStart_eq_pos {s : State} (herr : s.err = none) (hacc : s.acc = DecodeState.neutral) :
    currentStart s = s.pos := by
  simp [currentStart, herr, hacc, DecodeState.neutral]

/-- Between two instructions every consumed byte belongs to a record (R125). -/
theorem RecordsTile.up_to_pos {s : State} (htile : RecordsTile s) (herr : s.err = none)
    (hacc : s.acc = DecodeState.neutral) :
    ∃ records : List DecodedInstruction, s.results = records.map ResultItem.instruction ∧ Tiles 0 s.pos records := by
  obtain ⟨records, hresults, htiles⟩ := htile
  rw [currentStart_eq_pos herr hacc] at htiles
  exact ⟨records, by simpa [herr] using hresults, htiles⟩

/-! #### The obligation -/

/-- Settles O28: the step is the transition of R111, taken between two instructions, where the records reach the position
and the position is `LEN`. -/
theorem endOfStreamOnlyBetweenInstructions : Obligations.EndOfStreamOnlyBetweenInstructions := by
  intro s t hinv htile hr herr hstep
  have hiff : t.err = some .endOfStream ↔ s.phase = .awaitingOpcodeByte ∧ s.pos = s.len := by
    constructor
    · intro heos
      obtain ⟨hp, hend, -⟩ := (step_transition hstep).eq_endStream herr heos
      exact ⟨hp, le_antisymm hinv.position (not_lt.1 hend)⟩
    · rintro ⟨hp, hpos⟩
      cases hstep.symm.trans (step_of_transition (.endOfStream hr hp hpos.not_lt))
      exact endStream_err _
  refine ⟨hiff, fun heos => ?_⟩
  obtain ⟨hp, hpos⟩ := hiff.1 heos
  obtain ⟨-, -, rfl⟩ := (step_transition hstep).eq_endStream herr heos
  obtain ⟨records, hresults, htiles⟩ := htile.up_to_pos herr (hinv.acc_eq_neutral hp)
  refine ⟨rfl, rfl, rfl, records, ?_, hpos ▸ htiles⟩
  rw [endStream_results, setCursor_results, hresults]

end Sys2Proof.Machine

namespace Sys2Proof.Machine

/-! ### Family 70: reset and hazards -/

/-! #### The phases and fields of the gathering updates -/

@[simp] theorem validFlag_neutral (f : AccField) : validFlag DecodeState.neutral f = false := by
  cases f <;> rfl

/-- After a byte that leaves the instruction unrejected, its gathering goes on or it is complete (R114, R117). -/
theorem gatheringPhase_cases (disp imm : ByteCount) :
    gatheringPhase disp imm = .complete ∨ gatheringPhase disp imm = .awaitingDisplacementOrImmediate :=
  ite_eq_or_eq _ _ _

@[simp] theorem opcodeByte_addressingMode (f : Family) (b0 : Byte) (start : Nat) (s : State) :
    (opcodeByte f b0 start s).acc.addressingMode = s.acc.addressingMode := by
  cases f <;> rfl

theorem opcodeByte_phase_cases {f : Family} (hf : f ≠ .unrecognized) (b0 : Byte) (start : Nat) (s : State) :
    (opcodeByte f b0 start s).phase = .awaitingModeByte ∨
    (opcodeByte f b0 start s).phase = .awaitingDisplacementOrImmediate := by
  cases f with
  | registerOrMemoryToRegister | immediateToRegisterOrMemory => exact .inl rfl
  | immediateToRegister => exact .inr rfl
  | unrecognized => exact absurd rfl hf

@[simp] theorem storeDisplacement_addressingMode (v : Word) (s : State) :
    (storeDisplacement v s).acc.addressingMode = s.acc.addressingMode := rfl

@[simp] theorem storeImmediate_addressingMode (v : Word) (s : State) :
    (storeImmediate v s).acc.addressingMode = s.acc.addressingMode := rfl

/-! #### What a transition emits -/

/-- R234: a transition of a run emits nothing, the record of the instruction it completes, or the outcome it records on entering a
terminal phase. -/
theorem Transition.emission {s t : State} (h : Transition s t) (hr : s.rst = false) :
    t.results = s.results ∨
    (∃ i operands start, s.phase = .complete ∧ s.acc.gathered = .ok i ∧ operandsOf i = some operands ∧
      t.results = s.results ++ [.instruction (completedRecord operands start s)]) ∨
    (∃ final, t.results = s.results ++ [.outcome final] ∧ t.err = some final ∧ t.phase.isTerminal = true) := by
  cases h with
  | reset hrst => simp [hr] at hrst
  | opcodeByte | modeByte | displacement | immediate | idle => exact .inl (by simp)
  | completion i operands start _ hp hg ho _ => exact .inr (.inl ⟨i, operands, start, hp, hg, ho, rfl⟩)
  | endOfStream | unrecognized | invalid | truncatedAtMode | truncatedAtField => exact .inr (.inr ⟨_, rfl, rfl, rfl⟩)

/-! #### Which transitions write the addressing mode -/

/-- R231: beside a reset, R114 and R120 alone write the addressing mode. -/
theorem Transition.keeps_addressingMode {s t : State} (h : Transition s t) (hr : s.rst = false)
    (hmode : s.phase ≠ .awaitingModeByte) (hcomplete : s.phase ≠ .complete) :
    t.acc.addressingMode = s.acc.addressingMode := by
  cases h with
  | reset hrst => simp [hr] at hrst
  | modeByte _ _ _ _ hp => exact absurd hp hmode
  | completion _ _ _ _ hp => exact absurd hp hcomplete
  | endOfStream | opcodeByte | unrecognized | invalid | displacement | immediate | truncatedAtMode | truncatedAtField
  | idle => simp

/-- From `Complete` R110's table has the completion of R120 alone. -/
theorem Transition.clears_acc_of_complete {s t : State} (h : Transition s t) (hp : s.phase = .complete) :
    t.acc = DecodeState.neutral := by
  cases h with
  | reset | completion => rfl
  | endOfStream _ hphase | opcodeByte _ _ hphase | unrecognized _ _ hphase | modeByte _ _ _ _ hphase
  | invalid _ _ _ _ hphase | displacement _ _ hphase | immediate _ _ hphase | truncatedAtMode _ _ hphase
  | truncatedAtField _ _ _ hphase => simp [hp] at hphase
  | idle _ hphase => simp [hp, Phase.isTerminal] at hphase

/-! #### Where a transition leads -/

/-- By R110's table a transition leads between instructions, with the accumulator cleared (R220, R120); to the mode byte, from the
opcode byte alone (R112); on with the gathering; or to the end of the run. -/
theorem Transition.phase_cases {s t : State} (h : Transition s t) :
    (t.phase = .awaitingOpcodeByte ∧ t.acc = DecodeState.neutral ∧
      (s.rst = false → s.phase = .complete ∧ t.pos = s.pos ∧ t.err = s.err)) ∨
    (t.phase = .awaitingModeByte ∧ s.phase = .awaitingOpcodeByte) ∨
    (t.phase = .complete ∨ t.phase = .awaitingDisplacementOrImmediate) ∨
    t.phase.isTerminal = true := by
  cases h with
  | reset hrst => exact .inl ⟨rfl, rfl, fun hr => by simp [hr] at hrst⟩
  | completion _ _ _ _ hp => exact .inl ⟨rfl, rfl, fun _ => ⟨hp, rfl, rfl⟩⟩
  | opcodeByte _ _ hp _ _ hf =>
    obtain ht | ht := opcodeByte_phase_cases hf _ _ _
    · exact .inr (.inl ⟨ht, hp⟩)
    · exact .inr (.inr (.inl (.inr ht)))
  | modeByte | displacement => exact .inr (.inr (.inl (gatheringPhase_cases _ _)))
  | immediate => exact .inr (.inr (.inl (.inl rfl)))
  | endOfStream | unrecognized | invalid | truncatedAtMode | truncatedAtField => exact .inr (.inr (.inr rfl))
  | idle _ hp => exact .inr (.inr (.inr hp))

/-- The mode byte is awaited after the opcode byte alone (R112). -/
theorem Transition.awaitingModeByte_from {s t : State} (h : Transition s t) (ht : t.phase = .awaitingModeByte) :
    s.phase = .awaitingOpcodeByte := by
  obtain ⟨hp, -⟩ | ⟨-, hs⟩ | hp | hp := h.phase_cases
  · simp [ht] at hp
  · exact hs
  · simp [ht] at hp
  · simp [ht, Phase.isTerminal] at hp

/-- R223: the phase between instructions is reached by a reset and by completion alone, and both clear the accumulator. -/
theorem Transition.awaitingOpcodeByte_from {s t : State} (h : Transition s t) (ht : t.phase = .awaitingOpcodeByte) :
    t.acc = DecodeState.neutral ∧ (s.rst = false → s.phase = .complete ∧ t.pos = s.pos ∧ t.err = s.err) := by
  obtain ⟨-, hfrom⟩ | ⟨hp, -⟩ | hp | hp := h.phase_cases
  · exact hfrom
  · simp [ht] at hp
  · simp [ht] at hp
  · simp [ht, Phase.isTerminal] at hp

/-! #### The obligations -/

/-- Settles O45: a terminal phase only idles, and a step from another phase emits as R234 lists it. -/
theorem atMostOneItemPerStep : Obligations.AtMostOneItemPerStep := by
  intro s t hr hstep
  by_cases hterm : s.phase.isTerminal = true
  · cases hstep.symm.trans (step_terminal hr hterm)
    exact ⟨[], by simp, by simp, by simp, by simp, fun _ => ⟨rfl, rfl⟩⟩
  obtain hres | ⟨i, operands, start, hp, hg, ho, hres⟩ | ⟨final, hres, herr, hphase⟩ := (step_transition hstep).emission hr
  · exact ⟨[], by simpa using hres, by simp, by simp, by simp, fun h => absurd h hterm⟩
  · refine ⟨_, hres, le_rfl, ?_, by simp, fun h => absurd h hterm⟩
    intro record hmem
    cases List.mem_singleton.1 hmem
    exact ⟨hp, i, hg, ho⟩
  · refine ⟨_, hres, le_rfl, by simp, ?_, fun h => absurd h hterm⟩
    intro final' hmem
    cases List.mem_singleton.1 hmem
    exact ⟨herr, hphase⟩

/-- Settles O48: the writes of the mode by R110's table, and the reads of `rmForm` mode by mode. -/
theorem addressingModeIsWrittenOnce : Obligations.AddressingModeIsWrittenOnce := by
  refine ⟨fun s t hr hstep => ?_, ?_, ?_, ?_⟩
  · have htrans := step_transition hstep
    exact ⟨htrans.keeps_addressingMode hr, fun hp => by rw [htrans.clears_acc_of_complete hp]; rfl,
      htrans.awaitingModeByte_from⟩
  · intro a disp hdisp hmode
    rw [DecodeState.rmForm, hmode, hdisp]
    rfl
  · intro a rm hrm
    constructor <;> intro hmode <;> rw [DecodeState.rmForm, hmode, hrm] <;> rfl
  · intro a rm disp hrm hdisp
    constructor <;> intro hmode <;> rw [DecodeState.rmForm, hmode, hrm, hdisp] <;> rfl

/-- Settles O49: reset and completion are the ways into the phase between instructions, and both leave the neutral accumulator. -/
theorem accumulatorIsClearedBetweenInstructions : Obligations.AccumulatorIsClearedBetweenInstructions := by
  refine ⟨fun s t hstep ht => ?_, validFlag_neutral, rfl⟩
  obtain ⟨hacc, hfrom⟩ := (step_transition hstep).awaitingOpcodeByte_from ht
  rw [hacc]
  exact ⟨validFlag_neutral, rfl, hfrom⟩

end Sys2Proof.Machine

namespace Sys2Proof

/-! ### Family other: encoding and decoding -/

/-! #### The rows of the table by their format -/

/-- The formats of R67 to R69 and the two rejected rows: rows 1 to 10 are one format, rows 11 to 15 another. -/
inductive Instr.Shape : Instr → Prop where
  | movRegister (d : Direction) (w : Bool) (reg : Index) (rm : RmForm) : Shape (rm.movRegister d w reg)
  | movRmImm (w : Bool) (rm : RmForm) (imm : Word) : Shape (rm.movRmImm w imm)
  | movRegImm (w : Bool) (reg : Index) (imm : Word) : Shape (.movRegImm w reg imm)
  | invalid (w : Bool) (modeByte : Byte) : Shape (.invalid w modeByte)
  | unrecognized (firstByte : Byte) : Shape (.unrecognized firstByte)

theorem Instr.shape (i : Instr) : i.Shape := by
  cases i with
  | movRmRegDirectAddress w reg disp => exact .movRegister .sourceIsRegister w reg (.directAddress disp)
  | movRmRegMemoryNoDisplacement w reg rm => exact .movRegister .sourceIsRegister w reg (.memoryNoDisplacement rm)
  | movRmRegMemoryByteDisplacement w reg rm disp =>
    exact .movRegister .sourceIsRegister w reg (.memoryByteDisplacement rm disp)
  | movRmRegMemoryWordDisplacement w reg rm disp =>
    exact .movRegister .sourceIsRegister w reg (.memoryWordDisplacement rm disp)
  | movRmRegRegisterDirect w reg rm => exact .movRegister .sourceIsRegister w reg (.registerDirect rm)
  | movRegRmDirectAddress w reg disp => exact .movRegister .destinationIsRegister w reg (.directAddress disp)
  | movRegRmMemoryNoDisplacement w reg rm => exact .movRegister .destinationIsRegister w reg (.memoryNoDisplacement rm)
  | movRegRmMemoryByteDisplacement w reg rm disp =>
    exact .movRegister .destinationIsRegister w reg (.memoryByteDisplacement rm disp)
  | movRegRmMemoryWordDisplacement w reg rm disp =>
    exact .movRegister .destinationIsRegister w reg (.memoryWordDisplacement rm disp)
  | movRegRmRegisterDirect w reg rm => exact .movRegister .destinationIsRegister w reg (.registerDirect rm)
  | movRmImmDirectAddress w disp imm => exact .movRmImm w (.directAddress disp) imm
  | movRmImmMemoryNoDisplacement w rm imm => exact .movRmImm w (.memoryNoDisplacement rm) imm
  | movRmImmMemoryByteDisplacement w rm disp imm => exact .movRmImm w (.memoryByteDisplacement rm disp) imm
  | movRmImmMemoryWordDisplacement w rm disp imm => exact .movRmImm w (.memoryWordDisplacement rm disp) imm
  | movRmImmRegisterDirect w rm imm => exact .movRmImm w (.registerDirect rm) imm
  | movRegImm w reg imm => exact .movRegImm w reg imm
  | invalid w b => exact .invalid w b
  | unrecognized b => exact .unrecognized b

@[simp] theorem encode_movRegister (d : Direction) (w : Bool) (reg : Index) (rm : RmForm) :
    encode (rm.movRegister d w reg) = encodeRmReg d w reg rm := by
  cases d <;> cases rm <;> rfl

@[simp] theorem encode_movRmImm (w : Bool) (rm : RmForm) (imm : Word) :
    encode (rm.movRmImm w imm) = encodeImmRm w rm imm := by
  cases rm <;> rfl

@[simp] theorem wellFormed_movRegister (d : Direction) (w : Bool) (reg : Index) (rm : RmForm) :
    WellFormed (rm.movRegister d w reg) = rm.fits := by
  cases d <;> cases rm <;> rfl

@[simp] theorem wellFormed_movRmImm (w : Bool) (rm : RmForm) (imm : Word) :
    WellFormed (rm.movRmImm w imm) = (rm.fits && immediateFits w imm) := by
  cases rm <;> rfl

theorem regBits_eq_zero_iff (b1 : Byte) : regBits b1 = 0#3 ↔ b1.toNat / 8 % 8 = 0 := by
  rw [← toNat_regBits, ← BitVec.toNat_inj, BitVec.toNat_ofNat, Nat.zero_mod]

/-- INVALID is the row of the mode bytes whose reg sub-field is not 0 (R76, R145). -/
theorem wellFormed_invalid (w : Bool) (b1 : Byte) : WellFormed (.invalid w b1) = true ↔ regBits b1 ≠ 0#3 := by
  rw [WellFormed, decide_eq_true_iff, ne_eq, ne_eq, regBits_eq_zero_iff]

/-! #### Reading back what was encoded -/

/-- The r/m part of an encoding is a mode byte with the given reg sub-field, and `takeRm` reads the operand back. -/
theorem takeRm_encodeRm {rm : RmForm} (hfits : rm.fits = true) (reg : Index) :
    ∃ b1 dispBytes, encodeRm reg rm = b1 :: dispBytes ∧ regBits b1 = reg ∧
      ∀ rest, takeRm b1 (dispBytes ++ rest) = some (rm, rest) := by
  cases rm with
  | directAddress disp =>
    exact ⟨_, _, rfl, regBits_modeByteOf .., fun rest => by simp [takeRm, takeField_two, rmFormOf]⟩
  | memoryNoDisplacement rm =>
    have hrm : rm ≠ 6#3 := by simpa [RmForm.fits] using hfits
    exact ⟨_, _, rfl, regBits_modeByteOf .., fun rest => by simp [takeRm, modeOf_zero hrm, rmFormOf]⟩
  | memoryByteDisplacement rm disp =>
    exact ⟨_, _, rfl, regBits_modeByteOf .., fun rest => by simp [takeRm, takeField_one hfits, rmFormOf]⟩
  | memoryWordDisplacement rm disp =>
    exact ⟨_, _, rfl, regBits_modeByteOf .., fun rest => by simp [takeRm, takeField_two, rmFormOf]⟩
  | registerDirect rm =>
    exact ⟨_, _, rfl, regBits_modeByteOf .., fun rest => by simp [takeRm, rmFormOf]⟩

theorem decode_encodeRmReg {rm : RmForm} (hfits : rm.fits = true) (d : Direction) (w : Bool) (reg : Index)
    (rest : List Byte) : decode (encodeRmReg d w reg rm ++ rest) = .ok (rm.movRegister d w reg, rest) := by
  obtain ⟨b1, dispBytes, hbytes, hreg, htake⟩ := takeRm_encodeRm hfits reg
  simp [encodeRmReg, hbytes, decode, decodeRmReg, htake, hreg]

theorem decode_encodeImmRm {rm : RmForm} (hfits : rm.fits = true) {w : Bool} {imm : Word}
    (himm : immediateFits w imm = true) (rest : List Byte) :
    decode (encodeImmRm w rm imm ++ rest) = .ok (rm.movRmImm w imm, rest) := by
  obtain ⟨b1, dispBytes, hbytes, hreg, htake⟩ := takeRm_encodeRm hfits 0#3
  simp [encodeImmRm, hbytes, decode, decodeImmRm, htake, hreg, takeField_imm himm]

theorem decode_encodeImmReg {w : Bool} {imm : Word} (himm : immediateFits w imm = true) (reg : Index)
    (rest : List Byte) : decode (immRegByte w reg :: (encodeImm w imm ++ rest)) = .ok (.movRegImm w reg imm, rest) := by
  simp [decode, decodeImmReg, takeField_imm himm]

theorem decode_invalid {b1 : Byte} (hreg : regBits b1 ≠ 0#3) (w : Bool) (rest : List Byte) :
    decode (immRmByte w :: b1 :: rest) = .ok (.invalid w b1, rest) := by
  simp [decode, decodeImmRm, hreg]

theorem decode_unrecognized {b0 : Byte} (hb : isUnrecognizedByte b0 = true) (rest : List Byte) :
    decode (b0 :: rest) = .ok (.unrecognized b0, rest) := by
  simp [decode, (classify_unrecognized b0).2 hb]

/-- Settles O14, format by format. -/
theorem decodeAfterEncode : Obligations.DecodeAfterEncode := by
  intro i rest hwf
  cases i.shape with
  | movRegister d w reg rm =>
    rw [encode_movRegister]
    exact decode_encodeRmReg (by simpa using hwf) d w reg rest
  | movRmImm w rm imm =>
    rw [wellFormed_movRmImm, Bool.and_eq_true] at hwf
    rw [encode_movRmImm]
    exact decode_encodeImmRm hwf.1 hwf.2 rest
  | movRegImm w reg imm => exact decode_encodeImmReg hwf reg rest
  | invalid w b1 => exact decode_invalid ((wellFormed_invalid w b1).1 hwf) w rest
  | unrecognized b0 => exact decode_unrecognized hwf rest

/-! #### What was read encodes to the bytes it was read from -/

theorem takeField_one_eq_some {bytes rest : List Byte} {v : Option Word} (h : takeField .one bytes = some (v, rest)) :
    ∃ b, v = some (fromByte b) ∧ bytes = b :: rest := by
  cases bytes with
  | nil => cases h
  | cons b bytes =>
    cases h
    exact ⟨b, rfl, rfl⟩

theorem takeField_two_eq_some {bytes rest : List Byte} {v : Option Word} (h : takeField .two bytes = some (v, rest)) :
    ∃ value, v = some value ∧ bytes = wordBytes value ++ rest := by
  match bytes, h with
  | lo :: hi :: bytes, h =>
    cases h
    exact ⟨wordOf lo hi, rfl, by simp [wordBytes]⟩

/-- An immediate that was read is stored as its width admits, and is encoded by the bytes it was read from (R65, R71). -/
theorem takeField_imm_eq_some {f : Family} (hf : f = .immediateToRegisterOrMemory ∨ f = .immediateToRegister)
    {w : Bool} {bytes rest : List Byte} {v : Option Word} (h : takeField (nImm f w) bytes = some (v, rest)) :
    ∃ imm, v = some imm ∧ immediateFits w imm = true ∧ encodeImm w imm ++ rest = bytes := by
  have hcount : nImm f w = if w then .two else .one := by
    rcases hf with rfl | rfl <;> rfl
  rw [hcount] at h
  cases w with
  | false =>
    obtain ⟨b, rfl, rfl⟩ := takeField_one_eq_some h
    exact ⟨_, rfl, isSignedByte_fromByte b, by simp [encodeImm]⟩
  | true =>
    obtain ⟨value, rfl, rfl⟩ := takeField_two_eq_some h
    exact ⟨value, rfl, rfl, rfl⟩

/-- The five rows of R64 and R97, with the `mod` and `rm` each stands for. -/
theorem modeOf_cases (mod : BitVec 2) (rm : Index) :
    (mod = 0#2 ∧ rm = 6#3 ∧ modeOf mod rm = (.directAddress, .two)) ∨
    (mod = 0#2 ∧ rm ≠ 6#3 ∧ modeOf mod rm = (.memoryNoDisplacement, .zero)) ∨
    (mod = 1#2 ∧ modeOf mod rm = (.memoryByteDisplacement, .one)) ∨
    (mod = 2#2 ∧ modeOf mod rm = (.memoryWordDisplacement, .two)) ∨
    (mod = 3#2 ∧ modeOf mod rm = (.registerDirect, .zero)) := by
  revert mod rm; decide

theorem takeRm_eq_none_iff {b1 : Byte} {bytes : List Byte} :
    takeRm b1 bytes = none ↔ takeField (modeOf (modeBits b1) (rmBits b1)).2 bytes = none := by
  unfold takeRm
  split <;> simp_all

theorem takeRm_eq_some_iff {b1 : Byte} {bytes rest : List Byte} {rm : RmForm} :
    takeRm b1 bytes = some (rm, rest) ↔ ∃ d, takeField (modeOf (modeBits b1) (rmBits b1)).2 bytes = some (d, rest) ∧
      rm = rmFormOf (modeOf (modeBits b1) (rmBits b1)).1 (rmBits b1) (d.getD 0#16) := by
  unfold takeRm
  split
  next h => simp [h]
  next d rest' h =>
    simp only [h, Option.some.injEq, Prod.mk.injEq]
    constructor
    · rintro ⟨rfl, rfl⟩
      exact ⟨d, ⟨rfl, rfl⟩, rfl⟩
    · rintro ⟨d', ⟨rfl, rfl⟩, rfl⟩
      exact ⟨rfl, rfl⟩

/-- An operand that was read is encodable, and its encoding after the reg sub-field is the bytes it was read from. -/
theorem encodeRm_of_takeRm {b1 : Byte} {bytes rest : List Byte} {rm : RmForm} (h : takeRm b1 bytes = some (rm, rest)) :
    rm.fits = true ∧ encodeRm (regBits b1) rm ++ rest = b1 :: bytes := by
  have hb1 := modeByteOf_bits b1
  obtain ⟨disp, hfield, rfl⟩ := takeRm_eq_some_iff.1 h
  obtain ⟨hmod, hrm, hmode⟩ | ⟨hmod, hrm, hmode⟩ | ⟨hmod, hmode⟩ | ⟨hmod, hmode⟩ | ⟨hmod, hmode⟩ :=
    modeOf_cases (modeBits b1) (rmBits b1) <;> rw [hmode] at hfield ⊢
  · obtain ⟨value, rfl, rfl⟩ := takeField_two_eq_some hfield
    rw [hmod, hrm] at hb1
    exact ⟨rfl, by simp [rmFormOf, encodeRm, hb1]⟩
  · rw [takeField_zero] at hfield
    cases hfield
    rw [hmod] at hb1
    exact ⟨by simpa [rmFormOf, RmForm.fits] using hrm, by simp [rmFormOf, encodeRm, hb1]⟩
  · obtain ⟨b, rfl, rfl⟩ := takeField_one_eq_some hfield
    rw [hmod] at hb1
    exact ⟨isSignedByte_fromByte b, by simp [rmFormOf, encodeRm, hb1]⟩
  · obtain ⟨value, rfl, rfl⟩ := takeField_two_eq_some hfield
    rw [hmod] at hb1
    exact ⟨rfl, by simp [rmFormOf, encodeRm, hb1]⟩
  · rw [takeField_zero] at hfield
    cases hfield
    rw [hmod] at hb1
    exact ⟨rfl, by simp [rmFormOf, encodeRm, hb1]⟩

theorem decodeRmReg_eq_ok {b0 : Byte} (hf : classify b0 = .registerOrMemoryToRegister) {bytes rest : List Byte} {i : Instr}
    (h : decodeRmReg b0 bytes = .ok (i, rest)) : WellFormed i = true ∧ encode i ++ rest = b0 :: bytes := by
  cases bytes with
  | nil => cases h
  | cons b1 bytes =>
    cases hrm : takeRm b1 bytes with
    | none => simp [decodeRmReg, hrm] at h
    | some taken =>
      simp only [decodeRmReg, hrm] at h
      cases h
      obtain ⟨hfits, hbytes⟩ := encodeRm_of_takeRm hrm
      rw [wellFormed_movRegister, encode_movRegister, encodeRmReg, rmRegByte_bits hf, List.cons_append, hbytes]
      exact ⟨hfits, rfl⟩

theorem decodeImmRm_eq_ok {b0 : Byte} (hf : classify b0 = .immediateToRegisterOrMemory) {bytes rest : List Byte}
    {i : Instr} (h : decodeImmRm b0 bytes = .ok (i, rest)) : WellFormed i = true ∧ encode i ++ rest = b0 :: bytes := by
  cases bytes with
  | nil => cases h
  | cons b1 bytes =>
    by_cases hreg : regBits b1 = 0#3
    · cases hrm : takeRm b1 bytes with
      | none => simp [decodeImmRm, hreg, hrm] at h
      | some taken =>
        obtain ⟨rm, afterDisp⟩ := taken
        cases himm : takeField (nImm .immediateToRegisterOrMemory (widthBit .immediateToRegisterOrMemory b0)) afterDisp with
        | none => simp [decodeImmRm, hreg, hrm, himm] at h
        | some taken =>
          simp only [decodeImmRm, hreg, ne_eq, not_true, if_false, hrm, himm] at h
          cases h
          obtain ⟨hfits, hbytes⟩ := encodeRm_of_takeRm hrm
          obtain ⟨imm, himm', hw, hrest⟩ := takeField_imm_eq_some (.inl rfl) himm
          rw [himm', Option.getD_some, wellFormed_movRmImm, encode_movRmImm, encodeImmRm, immRmByte_bits hf,
            List.cons_append, List.append_assoc, hrest, ← hreg, hbytes, hfits, hw]
          exact ⟨rfl, rfl⟩
    · simp only [decodeImmRm, ne_eq, hreg, not_false_eq_true, if_true] at h
      cases h
      refine ⟨(wellFormed_invalid _ b1).2 hreg, ?_⟩
      rw [encode, immRmByte_bits hf]
      rfl

theorem decodeImmReg_eq_ok {b0 : Byte} (hf : classify b0 = .immediateToRegister) {bytes rest : List Byte}
    {i : Instr} (h : decodeImmReg b0 bytes = .ok (i, rest)) : WellFormed i = true ∧ encode i ++ rest = b0 :: bytes := by
  cases himm : takeField (nImm .immediateToRegister (widthBit .immediateToRegister b0)) bytes with
  | none => simp [decodeImmReg, himm] at h
  | some taken =>
    simp only [decodeImmReg, himm] at h
    cases h
    obtain ⟨imm, himm', hw, hrest⟩ := takeField_imm_eq_some (.inr rfl) himm
    rw [himm', Option.getD_some, encode, immRegByte_bits hf, List.cons_append, hrest]
    exact ⟨hw, rfl⟩

/-- Settles O15, format by format. -/
theorem encodeAfterDecode : Obligations.EncodeAfterDecode := by
  intro bytes i rest h
  cases bytes with
  | nil => cases h
  | cons b0 bytes =>
    rw [decode] at h
    split at h
    next hf => exact decodeRmReg_eq_ok hf h
    next hf => exact decodeImmRm_eq_ok hf h
    next hf => exact decodeImmReg_eq_ok hf h
    next hf =>
      cases h
      exact ⟨(classify_unrecognized b0).1 hf, rfl⟩

end Sys2Proof

namespace Sys2Proof.Machine

/-! ### Family other: the invariants of a run -/

/-! #### What a transition does to position, outcome and items -/

@[simp] theorem fieldBytes_false : fieldBytes false = 1 := rfl

@[simp] theorem fieldBytes_true : fieldBytes true = 2 := rfl

theorem fieldBytes_le {two : Bool} {s : State} (h : fieldBytes two ≤ s.len - s.pos) : s.pos + fieldBytes two ≤ s.len := by
  cases two <;> simp only [fieldBytes_false, fieldBytes_true] at h ⊢ <;> omega

@[simp] theorem isTerminal_gatheringPhase (disp imm : ByteCount) : (gatheringPhase disp imm).isTerminal = false := by
  obtain h | h := gatheringPhase_cases disp imm <;> rw [h] <;> rfl

/-- R13: no transition leads out of the buffer. -/
theorem Transition.pos_le_len {s t : State} (h : Transition s t) (hpos : s.pos ≤ s.len) : t.pos ≤ t.len := by
  cases h with
  | reset => exact Nat.zero_le _
  | endOfStream | truncatedAtMode | truncatedAtField | completion | idle => exact hpos
  | opcodeByte _ _ _ hlt => simpa using hlt
  | unrecognized _ _ _ hlt | modeByte _ _ _ _ _ hlt | invalid _ _ _ _ _ hlt => exact hlt
  | displacement _ _ _ _ hlt | immediate _ _ _ _ _ hlt => simpa using fieldBytes_le hlt

/-- R25, R33: a reset clears outcome and items; every other transition adds nothing, a record and no outcome, or an outcome to a
run in progress. -/
theorem Transition.results_and_err {s t : State} (h : Transition s t) :
    (t.results = [] ∧ t.err = none ∧ t.phase = .awaitingOpcodeByte) ∨
    (t.results = s.results ∧ t.err = s.err ∧
      (t.phase = s.phase ∨ (s.phase.isTerminal = false ∧ t.phase.isTerminal = false))) ∨
    (s.phase.isTerminal = false ∧ t.phase = .awaitingOpcodeByte ∧ t.err = s.err ∧
      ∃ record, t.results = s.results ++ [.instruction record]) ∨
    (s.phase.isTerminal = false ∧ ∃ final, t.results = s.results ++ [.outcome final] ∧ t.err = some final ∧
      ((t.phase = .done ∧ final = .endOfStream) ∨ (t.phase = .faulted ∧ final.isFatal = true))) := by
  cases h with
  | reset => exact .inl ⟨rfl, rfl, rfl⟩
  | opcodeByte b0 _ hp _ _ hf =>
    obtain ht | ht := opcodeByte_phase_cases hf b0 s.pos (consumeByte b0 s) <;>
      exact .inr (.inl ⟨by simp, by simp, .inr ⟨by rw [hp]; rfl, by rw [ht]; rfl⟩⟩)
  | modeByte _ _ _ _ hp =>
    exact .inr (.inl ⟨rfl, rfl, .inr ⟨by rw [hp]; rfl, isTerminal_gatheringPhase _ _⟩⟩)
  | displacement two _ hp =>
    exact .inr (.inl ⟨by simp, by simp, .inr ⟨by rw [hp]; rfl, isTerminal_gatheringPhase _ _⟩⟩)
  | immediate two _ hp => exact .inr (.inl ⟨by simp, by simp, .inr ⟨by rw [hp]; rfl, rfl⟩⟩)
  | idle => exact .inr (.inl ⟨rfl, rfl, .inl rfl⟩)
  | completion _ _ _ _ hp => exact .inr (.inr (.inl ⟨by rw [hp]; rfl, rfl, rfl, _, rfl⟩))
  | endOfStream _ hp => exact .inr (.inr (.inr ⟨by rw [hp]; rfl, _, rfl, rfl, .inl ⟨rfl, rfl⟩⟩))
  | unrecognized _ _ hp | invalid _ _ _ _ hp | truncatedAtMode _ _ hp | truncatedAtField _ _ _ hp =>
    exact .inr (.inr (.inr ⟨by rw [hp]; rfl, _, rfl, rfl, .inr ⟨rfl, rfl⟩⟩))

/-! #### Outcome and items under the invariant -/

/-- R25: there is an outcome only in a terminal phase. -/
theorem OutcomeFits.err_eq_none {s : State} (h : OutcomeFits s) (hp : s.phase.isTerminal = false) : s.err = none := by
  cases hphase : s.phase with
  | awaitingOpcodeByte | awaitingModeByte | awaitingDisplacementOrImmediate | complete => rwa [OutcomeFits, hphase] at h
  | done | faulted => simp [hphase, Phase.isTerminal] at hp

theorem outcomeFits_of_inProgress {s : State} (hp : s.phase.isTerminal = false) (herr : s.err = none) : OutcomeFits s := by
  cases hphase : s.phase with
  | awaitingOpcodeByte | awaitingModeByte | awaitingDisplacementOrImmediate | complete => rwa [OutcomeFits, hphase]
  | done | faulted => simp [hphase, Phase.isTerminal] at hp

theorem RunInv.err_eq_none {s : State} (hinv : RunInv s) (hp : s.phase.isTerminal = false) : s.err = none :=
  hinv.outcome.err_eq_none hp

theorem OutcomeFits.congr {s t : State} (h : OutcomeFits s) (hp : t.phase = s.phase) (herr : t.err = s.err) :
    OutcomeFits t := by
  rwa [OutcomeFits, hp, herr]

theorem Transition.keeps_outcomeFits {s t : State} (h : Transition s t) (hinv : RunInv s) : OutcomeFits t := by
  obtain ⟨-, herr, hp⟩ | ⟨-, herr, hp | ⟨hs, ht⟩⟩ | ⟨hs, hp, herr, -⟩ | ⟨-, final, -, herr, hend⟩ := h.results_and_err
  · exact outcomeFits_of_inProgress (by rw [hp]; rfl) herr
  · exact hinv.outcome.congr hp herr
  · exact outcomeFits_of_inProgress ht (herr.trans (hinv.err_eq_none hs))
  · exact outcomeFits_of_inProgress (by rw [hp]; rfl) (herr.trans (hinv.err_eq_none hs))
  · obtain ⟨hp, rfl⟩ | ⟨hp, hfatal⟩ := hend
    · rwa [OutcomeFits, hp]
    · rw [OutcomeFits, hp]
      exact ⟨final, herr, hfatal⟩

theorem Transition.keeps_resultsFit {s t : State} (h : Transition s t) (hinv : RunInv s) : ResultsFit t := by
  obtain ⟨records, hrecords⟩ := hinv.results
  obtain ⟨hres, herr, -⟩ | ⟨hres, herr, -⟩ | ⟨hs, -, herr, record, hres⟩ | ⟨hs, final, hres, herr, -⟩ := h.results_and_err
  · exact ⟨[], by rw [hres, herr]; rfl⟩
  · exact ⟨records, by rw [hres, herr, hrecords]⟩
  · refine ⟨records ++ [record], ?_⟩
    rw [hres, hrecords, herr, hinv.err_eq_none hs]
    simp
  · refine ⟨records, ?_⟩
    rw [hres, hrecords, herr, hinv.err_eq_none hs]
    simp

/-! #### The accumulator -/

/-- The three families of R26, as a disjunction. -/
theorem fieldsFit_iff {a : DecodeState} : FieldsFit a ↔ a.pendingBytes.mode = false ∧
    ((a.opcodeFamily = some .registerOrMemoryToRegister ∧ a.direction.isSome = true ∧ ModeFieldsFit a ∧
        a.immediate = none ∧ a.pendingBytes.imm = .zero) ∨
     (a.opcodeFamily = some .immediateToRegisterOrMemory ∧ a.direction = none ∧ ModeFieldsFit a ∧
        a.regField = some 0#3 ∧ ImmediateFits a) ∨
     (a.opcodeFamily = some .immediateToRegister ∧ a.direction = none ∧ a.addressingMode = none ∧ a.rmField = none ∧
        a.displacement = none ∧ a.regField.isSome = true ∧ a.pendingBytes.disp = .zero ∧ ImmediateFits a)) := by
  unfold FieldsFit
  cases a.opcodeFamily with
  | none => simp
  | some f => cases f <;> simp

/-- Once the fields of an instruction fit, the phase that its pending bytes give fits too (R114, R117, R118). -/
theorem phaseFits_of_gatheringPhase {s : State}
    (hp : s.phase = gatheringPhase s.acc.pendingBytes.disp s.acc.pendingBytes.imm) (hfields : FieldsFit s.acc)
    (hstart : StartFits s) : PhaseFits s := by
  by_cases hzero : s.acc.pendingBytes.disp = .zero ∧ s.acc.pendingBytes.imm = .zero
  · rw [gatheringPhase, if_pos hzero] at hp
    rw [PhaseFits, hp]
    refine ⟨hfields, hstart, ?_⟩
    obtain ⟨hdisp, himm⟩ := hzero
    calc s.acc.pendingBytes = ⟨s.acc.pendingBytes.mode, s.acc.pendingBytes.disp, s.acc.pendingBytes.imm⟩ := rfl
      _ = PendingBytes.nothing := by rw [hfields.1, hdisp, himm, PendingBytes.nothing]
  · rw [gatheringPhase, if_neg hzero] at hp
    rw [PhaseFits, hp]
    exact ⟨hfields, hstart, hzero⟩

theorem nImm_immediate {f : Family} (hf : f = .immediateToRegisterOrMemory ∨ f = .immediateToRegister) (w : Bool) :
    nImm f w = immediateCount w := by
  rcases hf with rfl | rfl <;> rfl

theorem opcodeByte_instrStart {f : Family} (hf : f ≠ .unrecognized) (b0 : Byte) (start : Nat) (s : State) :
    (opcodeByte f b0 start s).acc.instrStart = some start := by
  cases f with
  | unrecognized => exact absurd rfl hf
  | _ => rfl

@[simp] theorem modeByte_instrStart (f : Family) (w : Bool) (b1 : Byte) (s : State) :
    (modeByte f w b1 s).acc.instrStart = s.acc.instrStart := rfl

@[simp] theorem storeDisplacement_instrStart (v : Word) (s : State) :
    (storeDisplacement v s).acc.instrStart = s.acc.instrStart := rfl

@[simp] theorem storeImmediate_instrStart (v : Word) (s : State) :
    (storeImmediate v s).acc.instrStart = s.acc.instrStart := rfl

/-- R112 leaves what the next phase expects, from the neutral accumulator. -/
theorem phaseFits_opcodeByte {s : State} (hacc : s.acc = DecodeState.neutral) {f : Family} (hf : f ≠ .unrecognized)
    (b0 : Byte) : PhaseFits (opcodeByte f b0 s.pos (consumeByte b0 s)) := by
  cases f with
  | registerOrMemoryToRegister =>
    exact ⟨by simp [ModeByteAwaited, opcodeByte, hacc, DecodeState.neutral], s.pos, rfl,
      by simp [consumedBytes, opcodeByte, hacc, DecodeState.neutral]⟩
  | immediateToRegisterOrMemory =>
    exact ⟨by simp [ModeByteAwaited, opcodeByte, hacc, DecodeState.neutral], s.pos, rfl,
      by simp [consumedBytes, opcodeByte, hacc, DecodeState.neutral]⟩
  | immediateToRegister =>
    refine ⟨?_, ⟨s.pos, rfl, by simp [consumedBytes, opcodeByte, hacc, DecodeState.neutral]⟩, ?_⟩
    · simp [FieldsFit, opcodeByte, hacc, DecodeState.neutral, ImmediateFits, nImm_immediate]
    · simp only [opcodeByte, nImm]
      split <;> simp
  | unrecognized => exact absurd rfl hf

/-- The addressing mode of R97 with the bytes it makes pending, as the invariant speaks of them. -/
theorem modeOf_fits (mod : BitVec 2) (rm : Index) :
    (modeOf mod rm).2 = displacementCount (modeOf mod rm).1 ∧
    ((modeOf mod rm).1 = .directAddress → rm = 6#3) ∧ ((modeOf mod rm).1 = .memoryNoDisplacement → rm ≠ 6#3) := by
  revert mod rm; decide

/-- R114 stores the mode byte's fields, from an accumulator that awaits it. -/
theorem modeFieldsFit_modeByte {s : State} (hawait : ModeByteAwaited s.acc) (f : Family) (w : Bool) (b1 : Byte) :
    ModeFieldsFit (modeByte f w b1 s).acc := by
  obtain ⟨hwide, -, -, -, hdisp, -⟩ := hawait
  obtain ⟨hcount, hdirect, hnodisp⟩ := modeOf_fits (modeBits b1) (rmBits b1)
  exact ⟨hwide, rfl, _, _, rfl, rfl, hdirect, hnodisp, .inl ⟨hcount, hdisp⟩⟩

theorem fieldsFit_modeByte {s : State} (hawait : ModeByteAwaited s.acc) {f : Family} {w : Bool} {b1 : Byte}
    (hf : s.acc.opcodeFamily = some f) (hw : s.acc.wide = some w)
    (hvalid : ¬ (f = .immediateToRegisterOrMemory ∧ regBits b1 ≠ 0#3)) : FieldsFit (modeByte f w b1 s).acc := by
  have hmode := modeFieldsFit_modeByte hawait f w b1
  obtain ⟨-, -, -, -, -, himm, -, hfamily⟩ := hawait
  refine fieldsFit_iff.2 ⟨rfl, ?_⟩
  obtain ⟨hfam, hdir⟩ | ⟨hfam, hdir⟩ := hfamily <;> cases hf.symm.trans hfam
  · exact .inl ⟨hfam, hdir, hmode, himm, rfl⟩
  · have hreg : regBits b1 = 0#3 := by simpa using hvalid
    exact .inr (.inl ⟨hfam, hdir, hmode, congrArg some hreg, w, hw, .inl ⟨rfl, himm⟩⟩)

theorem consumedBytes_of_modeByteAwaited {a : DecodeState} (h : ModeByteAwaited a) : consumedBytes a = 1 := by
  obtain ⟨-, hmode, -, -, -, himm, -⟩ := h
  simp [consumedBytes, hmode, himm]

theorem startFits_modeByte {s : State} (hawait : ModeByteAwaited s.acc) (hstart : StartFits s) (f : Family) (w : Bool)
    (b1 : Byte) : StartFits (modeByte f w b1 (consumeByte b1 s)) := by
  obtain ⟨start, hs, hpos⟩ := hstart
  rw [consumedBytes_of_modeByteAwaited hawait] at hpos
  obtain ⟨-, -, -, -, hdisp, himm, -⟩ := hawait
  refine ⟨start, hs, ?_⟩
  simp [consumedBytes, modeByte, hdisp, himm, hpos]

/-! #### A stored displacement -/

/-- The count of a field of one or two bytes. -/
def fieldCount (two : Bool) : ByteCount := if two then .two else .one

theorem fieldCount_ne_zero (two : Bool) : fieldCount two ≠ .zero := by cases two <;> decide

theorem toNat_fieldCount (two : Bool) : (fieldCount two).toNat = fieldBytes two := by cases two <;> rfl

/-- A displacement that is still pending is of the stored mode's size and not stored. -/
theorem DisplacementFits.of_pending {a : DecodeState} {am : AddressingMode} (h : DisplacementFits a am)
    (hpending : a.pendingBytes.disp ≠ .zero) : a.pendingBytes.disp = displacementCount am ∧ a.displacement = none := by
  obtain h | ⟨hzero, -⟩ := h
  · exact h
  · exact absurd hzero hpending

/-- The accumulator after a displacement is stored (R117). -/
def withDisplacement (v : Word) (a : DecodeState) : DecodeState :=
  { a with displacement := some v, pendingBytes := { a.pendingBytes with disp := .zero } }

/-- The accumulator after an immediate is stored (R118). -/
def withImmediate (v : Word) (a : DecodeState) : DecodeState :=
  { a with immediate := some v, pendingBytes := { a.pendingBytes with imm := .zero } }

theorem storeDisplacement_acc (v : Word) (s : State) : (storeDisplacement v s).acc = withDisplacement v s.acc := rfl

theorem storeImmediate_acc (v : Word) (s : State) : (storeImmediate v s).acc = withImmediate v s.acc := rfl

/-- A one-byte field is stored sign-extended (R98). -/
theorem isSignedByte_fieldAtPos (s : State) : isSignedByte (fieldAtPos false s) = true := isSignedByte_fromByte _

theorem ModeFieldsFit.withDisplacement {s : State} (h : ModeFieldsFit s.acc) {two : Bool}
    (hpending : s.acc.pendingBytes.disp = fieldCount two) : ModeFieldsFit (withDisplacement (fieldAtPos two s) s.acc) := by
  obtain ⟨hwide, hreg, am, rm, ham, hrm, hdirect, hnodisp, hdisp⟩ := h
  obtain ⟨hcount, -⟩ := hdisp.of_pending (hpending ▸ fieldCount_ne_zero two)
  rw [hpending] at hcount
  refine ⟨hwide, hreg, am, rm, ham, hrm, hdirect, hnodisp, .inr ⟨rfl, hcount ▸ fieldCount_ne_zero two, _, rfl, ?_⟩⟩
  rintro rfl
  cases two with
  | false => exact isSignedByte_fieldAtPos s
  | true => cases hcount

/-- While a displacement is pending the immediate is not stored (R117 before R118). -/
theorem ImmediateFits.withDisplacement {a : DecodeState} (h : ImmediateFits a) (hpending : a.pendingBytes.disp ≠ .zero)
    (v : Word) : ImmediateFits (withDisplacement v a) := by
  obtain ⟨w, hw, himm | ⟨-, hzero, -⟩⟩ := h
  · exact ⟨w, hw, .inl himm⟩
  · exact absurd hzero hpending

theorem FieldsFit.withDisplacement {s : State} (h : FieldsFit s.acc) {two : Bool}
    (hpending : s.acc.pendingBytes.disp = fieldCount two) : FieldsFit (withDisplacement (fieldAtPos two s) s.acc) := by
  have hne : s.acc.pendingBytes.disp ≠ .zero := hpending ▸ fieldCount_ne_zero two
  obtain ⟨hnomode, hfamily⟩ := fieldsFit_iff.1 h
  refine fieldsFit_iff.2 ⟨hnomode, ?_⟩
  obtain ⟨hf, hdir, hmode, himm, hzero⟩ | ⟨hf, hdir, hmode, hreg, himm⟩ | ⟨-, -, -, -, -, -, hzero, -⟩ := hfamily
  · exact .inl ⟨hf, hdir, hmode.withDisplacement hpending, himm, hzero⟩
  · exact .inr (.inl ⟨hf, hdir, hmode.withDisplacement hpending, hreg, himm.withDisplacement hne _⟩)
  · exact absurd hzero hne

/-- Where a displacement is pending a mode byte was read, and the mode's displacement is not counted yet. -/
theorem consumedBytes_withDisplacement {a : DecodeState} (h : FieldsFit a) {two : Bool}
    (hpending : a.pendingBytes.disp = fieldCount two) (v : Word) :
    consumedBytes (withDisplacement v a) = consumedBytes a + fieldBytes two := by
  have hne : a.pendingBytes.disp ≠ .zero := hpending ▸ fieldCount_ne_zero two
  have hmode : ModeFieldsFit a := by
    obtain ⟨-, ⟨-, -, hmode, -⟩ | ⟨-, -, hmode, -⟩ | ⟨-, -, -, -, -, -, hzero, -⟩⟩ := fieldsFit_iff.1 h
    · exact hmode
    · exact hmode
    · exact absurd hzero hne
  obtain ⟨-, -, am, -, ham, -, -, -, hdisp⟩ := hmode
  obtain ⟨hcount, hnone⟩ := hdisp.of_pending hne
  have hbytes : (displacementCount am).toNat = fieldBytes two := by rw [← hcount, hpending, toNat_fieldCount]
  simp only [consumedBytes, Machine.withDisplacement, ham, hnone, Option.isSome_some, Option.isSome_none, if_true,
    Bool.false_eq_true, if_false, hbytes]
  omega

/-! #### A stored immediate -/

/-- An immediate that is still pending is of the size the width gives and not stored. -/
theorem ImmediateFits.of_pending {a : DecodeState} (h : ImmediateFits a) (hpending : a.pendingBytes.imm ≠ .zero) :
    ∃ w, a.wide = some w ∧ a.pendingBytes.imm = immediateCount w ∧ a.immediate = none := by
  obtain ⟨w, hw, ⟨hcount, hnone⟩ | ⟨hzero, -⟩⟩ := h
  · exact ⟨w, hw, hcount, hnone⟩
  · exact absurd hzero hpending

theorem fieldCount_injective : Function.Injective fieldCount := by decide

theorem immediateFits_fieldAtPos (w : Bool) (s : State) : immediateFits w (fieldAtPos w s) = true := by
  cases w with
  | false => exact isSignedByte_fieldAtPos s
  | true => rfl

theorem ImmediateFits.withImmediate {s : State} (h : ImmediateFits s.acc) {two : Bool}
    (hdisp : s.acc.pendingBytes.disp = .zero) (hpending : s.acc.pendingBytes.imm = fieldCount two) :
    ImmediateFits (withImmediate (fieldAtPos two s) s.acc) := by
  obtain ⟨w, hw, hcount, -⟩ := h.of_pending (hpending ▸ fieldCount_ne_zero two)
  cases fieldCount_injective (hpending.symm.trans hcount)
  exact ⟨two, hw, .inr ⟨rfl, hdisp, _, rfl, immediateFits_fieldAtPos two s⟩⟩

theorem FieldsFit.withImmediate {s : State} (h : FieldsFit s.acc) {two : Bool}
    (hdisp : s.acc.pendingBytes.disp = .zero) (hpending : s.acc.pendingBytes.imm = fieldCount two) :
    FieldsFit (withImmediate (fieldAtPos two s) s.acc) := by
  obtain ⟨hnomode, hfamily⟩ := fieldsFit_iff.1 h
  refine fieldsFit_iff.2 ⟨hnomode, ?_⟩
  obtain ⟨-, -, -, -, hzero⟩ | ⟨hf, hdir, hmode, hreg, himm⟩ | ⟨hf, hdir, ham, hrm, hnone, hreg, -, himm⟩ := hfamily
  · exact absurd hzero (hpending ▸ fieldCount_ne_zero two)
  · exact .inr (.inl ⟨hf, hdir, hmode, hreg, himm.withImmediate hdisp hpending⟩)
  · exact .inr (.inr ⟨hf, hdir, ham, hrm, hnone, hreg, hdisp, himm.withImmediate hdisp hpending⟩)

theorem consumedBytes_withImmediate {a : DecodeState} (h : FieldsFit a) {two : Bool}
    (hpending : a.pendingBytes.imm = fieldCount two) (v : Word) :
    consumedBytes (withImmediate v a) = consumedBytes a + fieldBytes two := by
  have hne : a.pendingBytes.imm ≠ .zero := hpending ▸ fieldCount_ne_zero two
  have himm : ImmediateFits a := by
    obtain ⟨-, ⟨-, -, -, -, hzero⟩ | ⟨-, -, -, -, himm⟩ | ⟨-, -, -, -, -, -, -, himm⟩⟩ := fieldsFit_iff.1 h
    · exact absurd hzero hne
    · exact himm
    · exact himm
  obtain ⟨w, hw, hcount, hnone⟩ := himm.of_pending hne
  cases fieldCount_injective (hpending.symm.trans hcount)
  simp only [consumedBytes, Machine.withImmediate, hw, hnone, Option.isSome_some, Option.isSome_none, if_true,
    Bool.false_eq_true, if_false, Option.getD_some, immLength, fieldBytes, Nat.add_zero]

/-! #### The obligations -/

theorem RunInv.modeByteAwaited {s : State} (hinv : RunInv s) (hp : s.phase = .awaitingModeByte) :
    ModeByteAwaited s.acc ∧ StartFits s := by
  have hacc := hinv.accumulator
  rwa [PhaseFits, hp] at hacc

theorem RunInv.fieldsAwaited {s : State} (hinv : RunInv s) (hp : s.phase = .awaitingDisplacementOrImmediate) :
    FieldsFit s.acc ∧ StartFits s ∧ ¬ (s.acc.pendingBytes.disp = .zero ∧ s.acc.pendingBytes.imm = .zero) := by
  have hacc := hinv.accumulator
  rwa [PhaseFits, hp] at hacc

theorem RunInv.fieldsComplete {s : State} (hinv : RunInv s) (hp : s.phase = .complete) :
    FieldsFit s.acc ∧ StartFits s ∧ s.acc.pendingBytes = PendingBytes.nothing := by
  have hacc := hinv.accumulator
  rwa [PhaseFits, hp] at hacc

theorem StartFits.storeDisplacement {s : State} (hstart : StartFits s) (hfields : FieldsFit s.acc) {two : Bool}
    (hpending : s.acc.pendingBytes.disp = fieldCount two) (v : Word) :
    StartFits (storeDisplacement v (consumeField two s)) := by
  obtain ⟨start, hs, hpos⟩ := hstart
  refine ⟨start, by simpa using hs, ?_⟩
  rw [storeDisplacement_acc, consumeField_acc, consumedBytes_withDisplacement hfields hpending]
  simp only [storeDisplacement_pos, consumeField_pos, hpos, Nat.add_assoc]

theorem StartFits.storeImmediate {s : State} (hstart : StartFits s) (hfields : FieldsFit s.acc) {two : Bool}
    (hpending : s.acc.pendingBytes.imm = fieldCount two) (v : Word) :
    StartFits (storeImmediate v (consumeField two s)) := by
  obtain ⟨start, hs, hpos⟩ := hstart
  refine ⟨start, by simpa using hs, ?_⟩
  rw [storeImmediate_acc, consumeField_acc, consumedBytes_withImmediate hfields hpending]
  simp only [storeImmediate_pos, consumeField_pos, hpos, Nat.add_assoc]

/-- R14, R26: along R110's table the accumulator holds what the phase says. -/
theorem Transition.keeps_phaseFits {s t : State} (h : Transition s t) (hinv : RunInv s) : PhaseFits t := by
  cases h with
  | reset | completion => rfl
  | endOfStream _ hp hend => exact ⟨hinv.acc_eq_neutral hp, le_antisymm hinv.position (not_lt.1 hend)⟩
  | unrecognized | invalid | truncatedAtMode | truncatedAtField => trivial
  | opcodeByte b0 _ hp _ _ hf => exact phaseFits_opcodeByte (hinv.acc_eq_neutral hp) hf b0
  | modeByte b1 f w _ hp _ _ hf hw _ hvalid =>
    obtain ⟨hawait, hstart⟩ := hinv.modeByteAwaited hp
    exact phaseFits_of_gatheringPhase rfl (fieldsFit_modeByte hawait hf hw hvalid)
      (startFits_modeByte hawait hstart f w b1)
  | displacement two _ hp hpending =>
    obtain ⟨hfields, hstart, -⟩ := hinv.fieldsAwaited hp
    refine phaseFits_of_gatheringPhase rfl ?_ (hstart.storeDisplacement hfields hpending _)
    rw [storeDisplacement_acc, consumeField_acc]
    exact hfields.withDisplacement hpending
  | immediate two _ hp hdisp hpending =>
    obtain ⟨hfields, hstart, -⟩ := hinv.fieldsAwaited hp
    refine phaseFits_of_gatheringPhase ?_ ?_ (hstart.storeImmediate hfields hpending _)
    · simp [storeImmediate_acc, gatheringPhase, Machine.withImmediate, hdisp]
    · rw [storeImmediate_acc, consumeField_acc]
      exact hfields.withImmediate hdisp hpending
  | idle => exact hinv.accumulator

/-- Settles O42: each part of the invariant is kept along R110's table. -/
theorem invariantIsKept : Obligations.InvariantIsKept := by
  intro s t hinv hstep
  have htrans := step_transition hstep
  obtain ⟨hmem, hlen⟩ := htrans.keeps_buffer
  exact
    { buffer := by rw [BufferFits, hmem, hlen]; exact hinv.buffer
      position := htrans.pos_le_len hinv.position
      accumulator := htrans.keeps_phaseFits hinv
      outcome := htrans.keeps_outcomeFits hinv
      results := htrans.keeps_resultsFit hinv }

/-! #### The records tile the buffer -/

theorem Tiles.concat {first last : Nat} {records : List DecodedInstruction} (h : Tiles first last records)
    {record : DecodedInstruction} (hstart : record.start = last) (hmin : 2 ≤ record.length) (hmax : record.length ≤ 6) :
    Tiles first (last + record.length) (records ++ [record]) := by
  induction records generalizing first with
  | nil =>
    obtain rfl : first = last := h
    exact ⟨hstart, hmin, hmax, rfl⟩
  | cons r rest ih =>
    obtain ⟨hr, h2, h6, hrest⟩ := h
    exact ⟨hr, h2, h6, ih hrest⟩

theorem currentStart_eq_start {s : State} {start : Nat} (herr : s.err = none) (hs : s.acc.instrStart = some start) :
    currentStart s = start := by
  simp [currentStart, herr, hs]

/-- A step that emits nothing and stays with the current instruction. -/
theorem RecordsTile.of_same {s t : State} (h : RecordsTile s) (hres : t.results = s.results) (herr : t.err = s.err)
    (hstart : currentStart t = currentStart s) : RecordsTile t := by
  rwa [RecordsTile, hres, herr, hstart]

/-- A step that goes on with an instruction whose start is recorded. -/
theorem RecordsTile.of_gathering {s t : State} {start : Nat} (h : RecordsTile s) (hnone : s.err = none)
    (hs : s.acc.instrStart = some start) (hres : t.results = s.results) (herr : t.err = s.err)
    (hstart : t.acc.instrStart = s.acc.instrStart) : RecordsTile t := by
  refine h.of_same hres herr ?_
  rw [currentStart_eq_start hnone hs, currentStart_eq_start (herr.trans hnone) (hstart.trans hs)]

/-- A step that emits the outcome of the current instruction. -/
theorem RecordsTile.of_outcome {s t : State} {final : FinalOutcome} (h : RecordsTile s) (hnone : s.err = none)
    (hres : t.results = s.results ++ [.outcome final]) (herr : t.err = some final)
    (hstart : currentStart t = currentStart s) : RecordsTile t := by
  obtain ⟨records, hrecords, htiles⟩ := h
  exact ⟨records, by rw [hres, hrecords, hnone, herr]; simp, hstart ▸ htiles⟩

/-- The bytes of a stored displacement are at most two. -/
theorem toNat_displacementCount_le (am : AddressingMode) : (displacementCount am).toNat ≤ 2 := by cases am <;> decide

/-- A pending count of zero means that the immediate is stored: an immediate has at least one byte (R65). -/
theorem ImmediateFits.isSome {a : DecodeState} (h : ImmediateFits a) (hzero : a.pendingBytes.imm = .zero) :
    a.immediate.isSome = true := by
  obtain ⟨w, -, ⟨hcount, -⟩ | ⟨-, -, v, hv, -⟩⟩ := h
  · exact absurd (hcount.symm.trans hzero) (fieldCount_ne_zero w)
  · rw [hv]; rfl

/-- R66: a completed instruction has consumed 2 to 6 bytes. -/
theorem consumedBytes_bounds {a : DecodeState} (h : FieldsFit a) (hpending : a.pendingBytes = PendingBytes.nothing) :
    2 ≤ consumedBytes a ∧ consumedBytes a ≤ 6 := by
  have hzero : a.pendingBytes.imm = .zero := by rw [hpending]; rfl
  have himmLength : 1 ≤ immLength (a.wide.getD false) ∧ immLength (a.wide.getD false) ≤ 2 := by
    cases a.wide.getD false <;> decide
  unfold consumedBytes
  obtain ⟨-, ⟨-, -, hmode, -⟩ | ⟨-, -, hmode, -⟩ | ⟨-, -, ham, -, -, -, -, himm⟩⟩ := fieldsFit_iff.1 h
  · obtain ⟨-, -, am, -, ham, -⟩ := hmode
    have := toNat_displacementCount_le am
    rw [ham]
    dsimp only
    split <;> split <;> omega
  · obtain ⟨-, -, am, -, ham, -⟩ := hmode
    have := toNat_displacementCount_le am
    rw [ham]
    dsimp only
    split <;> split <;> omega
  · rw [ham, if_pos (himm.isSome hzero)]
    dsimp only
    omega

/-- Completion adds the record of the bytes from the current instruction's start to the position (R120, R146 d). -/
theorem RecordsTile.completedState {s : State} (h : RecordsTile s) (hinv : RunInv s) (hp : s.phase = .complete)
    {start : Nat} (hs : s.acc.instrStart = some start) (operands : Operand × Operand) :
    RecordsTile (completedState operands start s) := by
  have herr : s.err = none := hinv.err_eq_none (by rw [hp]; rfl)
  obtain ⟨records, hrecords, htiles⟩ := h
  rw [currentStart_eq_start herr hs] at htiles
  obtain ⟨hfields, ⟨start', hs', hpos⟩, hpending⟩ := hinv.fieldsComplete hp
  cases hs.symm.trans hs'
  obtain ⟨hmin, hmax⟩ := consumedBytes_bounds hfields hpending
  have hlength : (completedRecord operands start s).length = consumedBytes s.acc := by
    rw [completedRecord, hpos, Nat.add_sub_cancel_left]
  refine ⟨records ++ [completedRecord operands start s], by simp [hrecords, herr], ?_⟩
  rw [currentStart_eq_pos (by simpa using herr) rfl, completedState_pos, hpos, ← hlength]
  exact htiles.concat rfl (hlength ▸ hmin) (hlength ▸ hmax)

/-- R52, R125: along R110's table a record is added at completion alone, and the current instruction keeps its start. -/
theorem Transition.keeps_recordsTile {s t : State} (h : Transition s t) (hinv : RunInv s) (htile : RecordsTile s) :
    RecordsTile t := by
  cases h with
  | reset => exact ⟨[], rfl, rfl⟩
  | idle => exact htile.of_same rfl rfl rfl
  | completion i operands start _ hp _ _ hs => exact htile.completedState hinv hp hs operands
  | opcodeByte b0 _ hp _ _ hf =>
    have herr : s.err = none := hinv.err_eq_none (by rw [hp]; rfl)
    refine htile.of_same (by simp) (by simp) ?_
    rw [currentStart_eq_pos herr (hinv.acc_eq_neutral hp)]
    exact currentStart_eq_start (by simpa using herr) (opcodeByte_instrStart hf _ _ _)
  | modeByte _ _ _ _ hp =>
    have herr : s.err = none := hinv.err_eq_none (by rw [hp]; rfl)
    obtain ⟨-, start, hs, -⟩ := hinv.modeByteAwaited hp
    exact htile.of_gathering herr hs (by simp) (by simp) (by simp)
  | displacement _ _ hp | immediate _ _ hp =>
    have herr : s.err = none := hinv.err_eq_none (by rw [hp]; rfl)
    obtain ⟨-, ⟨start, hs, -⟩, -⟩ := hinv.fieldsAwaited hp
    exact htile.of_gathering herr hs (by simp) (by simp) (by simp)
  | endOfStream _ hp | unrecognized _ _ hp =>
    have herr : s.err = none := hinv.err_eq_none (by rw [hp]; rfl)
    exact htile.of_outcome herr rfl rfl (currentStart_eq_pos herr (hinv.acc_eq_neutral hp)).symm
  | invalid b1 w start _ hp _ _ _ _ _ hs | truncatedAtMode start _ hp _ hs
  | truncatedAtField two start _ hp _ _ hs =>
    have herr : s.err = none := hinv.err_eq_none (by rw [hp]; rfl)
    exact htile.of_outcome herr rfl rfl (currentStart_eq_start herr hs).symm

/-- Settles O44, along R110's table. -/
theorem recordsKeepTiling : Obligations.RecordsKeepTiling :=
  fun _ _ hinv htile hstep => (step_transition hstep).keeps_recordsTile hinv htile

end Sys2Proof.Machine

namespace Sys2Proof.Machine

/-! ### Family other: runs -/

/-! #### A loaded buffer -/

/-- Bytes written in a row are read back in a row. -/
theorem Memory.readBytes_writeBytes {m : List Host.Cell} (hm : Memory.wf m = true) (a : Nat) (bytes : List Byte) :
    Memory.readBytes (Memory.writeBytes m a bytes) a bytes.length = bytes := by
  induction bytes generalizing m a with
  | nil => rfl
  | cons b bytes ih =>
    have hwrite : Memory.wf (Memory.write m a b) = true := Memory.write_wf a b (Nat.zero_le a) hm
    have hfirst : Memory.read (Memory.writeBytes (Memory.write m a b) (a + 1) bytes) a = b := by
      rw [Memory.read_writeBytes _ _ _ hwrite, if_neg (by omega), Memory.read_write _ _ _ hm, if_pos rfl]
    rw [Memory.writeBytes, List.length_cons, Memory.readBytes, hfirst, ih hwrite]

theorem runInv_powerOn (bytes : List Byte) : RunInv (powerOn bytes) where
  buffer := by
    refine ⟨bufferOf_wf bytes, fun c hc => ?_⟩
    obtain ⟨-, hlt⟩ | hnil := Memory.writeBytes_offsets hc
    · rwa [Nat.zero_add] at hlt
    · cases hnil
  position := Nat.zero_le _
  accumulator := rfl
  outcome := rfl
  results := ⟨[], rfl⟩

/-- Settles O4: the writes of a load are read back, and nothing has been emitted. -/
theorem loadedBufferHoldsItsBytes : Obligations.LoadedBufferHoldsItsBytes :=
  fun bytes => ⟨Memory.readBytes_writeBytes rfl 0 bytes, runInv_powerOn bytes, [], rfl, rfl⟩

/-- Settles O1: the reset state is the power-on state over the empty buffer. -/
theorem resetStateMeetsInvariants : Obligations.ResetStateMeetsInvariants :=
  (loadedBufferHoldsItsBytes []).2

/-! #### The cursor -/

theorem deliveredBytes_consumeField (two : Bool) (s : State) :
    deliveredBytes (consumeField two s).cur = fieldBytes two := by
  cases two <;> rfl

/-- R34: the phases that await bytes make one request in each transition, the others none; the position moves by the answer. -/
theorem Transition.cursor {s t : State} (h : Transition s t) (hr : s.rst = false) :
    t.pos = s.pos + deliveredBytes t.cur ∧ t.cur.isSome = s.phase.isAwaiting := by
  cases h with
  | reset hrst => simp [hr] at hrst
  | endOfStream _ hp | truncatedAtMode _ _ hp | truncatedAtField _ _ _ hp => exact ⟨rfl, by rw [hp]; rfl⟩
  | opcodeByte _ _ hp => exact ⟨by simp [deliveredBytes, responseBytes], by rw [hp]; simp [Phase.isAwaiting]⟩
  | unrecognized _ _ hp | modeByte _ _ _ _ hp | invalid _ _ _ _ hp => exact ⟨rfl, by rw [hp]; rfl⟩
  | displacement two _ hp | immediate two _ hp =>
    exact ⟨by simp [deliveredBytes_consumeField], by rw [hp]; simp [consumeField_cur, Phase.isAwaiting]⟩
  | completion _ _ _ _ hp => exact ⟨rfl, by rw [hp]; rfl⟩
  | idle _ hp =>
    cases hphase : s.phase with
    | done | faulted => exact ⟨rfl, rfl⟩
    | _ => simp [hphase, Phase.isTerminal] at hp

/-- Settles O9, along R110's table. -/
theorem cursorMovesForwardByItsReads : Obligations.CursorMovesForwardByItsReads := by
  intro s t hr hstep
  have htrans := step_transition hstep
  obtain ⟨hpos, hcur⟩ := htrans.cursor hr
  exact ⟨hpos, hcur, htrans.pos_le_len⟩

/-- Settles O10: the position stays in the buffer, whose length the register holds. -/
theorem positionFitsItsRegister : Obligations.PositionFitsItsRegister := by
  intro s t hinv hlength hstep
  have htrans := step_transition hstep
  calc t.pos ≤ t.len := htrans.pos_le_len hinv.position
    _ = s.len := htrans.keeps_buffer.2
    _ < 2 ^ Config.posWidth := hlength

/-! #### Progress -/

theorem gathered_registerMove {a : DecodeState} {d : Direction} {w : Bool} {reg : Index} {rm : RmForm}
    (hf : a.opcodeFamily = some .registerOrMemoryToRegister) (hd : a.direction = some d) (hw : a.wide = some w)
    (hreg : a.regField = some reg) (hrm : a.rmForm = .ok rm) : a.gathered = .ok (rm.movRegister d w reg) := by
  rw [DecodeState.gathered, hf, hd, hw, hreg, hrm]
  rfl

theorem gathered_immediateToRm {a : DecodeState} {w : Bool} {rm : RmForm} {imm : Word}
    (hf : a.opcodeFamily = some .immediateToRegisterOrMemory) (hw : a.wide = some w) (hrm : a.rmForm = .ok rm)
    (himm : a.immediate = some imm) : a.gathered = .ok (rm.movRmImm w imm) := by
  rw [DecodeState.gathered, hf, hw, hrm, himm]
  rfl

theorem gathered_immediateToReg {a : DecodeState} {w : Bool} {reg : Index} {imm : Word}
    (hf : a.opcodeFamily = some .immediateToRegister) (hw : a.wide = some w) (hreg : a.regField = some reg)
    (himm : a.immediate = some imm) : a.gathered = .ok (.movRegImm w reg imm) := by
  rw [DecodeState.gathered, hf, hw, hreg, himm]
  rfl

/-- The r/m operand of an accumulator is the decoder's, once a displacement that the mode has is stored (R165 to R168). -/
theorem rmForm_eq_rmFormOf {a : DecodeState} {am : AddressingMode} {rm : Index} (ham : a.addressingMode = some am)
    (hrm : a.rmField = some rm) (hstored : displacementCount am ≠ .zero → ∃ disp, a.displacement = some disp) :
    a.rmForm = .ok (rmFormOf am rm (a.displacement.getD 0#16)) := by
  obtain ⟨-, hdirect, hplain, hoffset⟩ := addressingModeIsWrittenOnce
  cases am with
  | registerDirect => exact (hplain a rm hrm).2 ham
  | memoryNoDisplacement => exact (hplain a rm hrm).1 ham
  | memoryByteDisplacement =>
    obtain ⟨disp, hsome⟩ := hstored (by decide)
    rw [(hoffset a rm disp hrm hsome).1 ham, hsome]
    rfl
  | memoryWordDisplacement =>
    obtain ⟨disp, hsome⟩ := hstored (by decide)
    rw [(hoffset a rm disp hrm hsome).2 ham, hsome]
    rfl
  | directAddress =>
    obtain ⟨disp, hsome⟩ := hstored (by decide)
    rw [hdirect a disp hsome ham, hsome]
    rfl

/-- With nothing pending, the fields of the mode byte make an r/m operand. -/
theorem ModeFieldsFit.rmForm_ok {a : DecodeState} (h : ModeFieldsFit a) (hzero : a.pendingBytes.disp = .zero) :
    ∃ rm, a.rmForm = .ok rm := by
  obtain ⟨-, -, am, rm, ham, hrm, -, -, hdisp⟩ := h
  refine ⟨_, rmForm_eq_rmFormOf ham hrm fun hne => ?_⟩
  obtain ⟨hcount, -⟩ | ⟨-, -, disp, hsome, -⟩ := hdisp
  · exact absurd (hcount.symm.trans hzero) hne
  · exact ⟨disp, hsome⟩

/-- R26, R120: a completed accumulator holds an instruction. -/
theorem FieldsFit.gathered_ok {a : DecodeState} (h : FieldsFit a) (hpending : a.pendingBytes = PendingBytes.nothing) :
    ∃ i, a.gathered = .ok i := by
  have hdisp : a.pendingBytes.disp = .zero := by rw [hpending]; rfl
  have himm : a.pendingBytes.imm = .zero := by rw [hpending]; rfl
  obtain ⟨-, ⟨hf, hd, hmode, -⟩ | ⟨hf, -, hmode, -, hfits⟩ | ⟨hf, -, -, -, -, hreg, -, hfits⟩⟩ := fieldsFit_iff.1 h
  · obtain ⟨rm, hrm⟩ := hmode.rmForm_ok hdisp
    obtain ⟨hwide, hreg, -⟩ := hmode
    obtain ⟨d, hd⟩ := Option.isSome_iff_exists.1 hd
    obtain ⟨w, hw⟩ := Option.isSome_iff_exists.1 hwide
    obtain ⟨reg, hreg⟩ := Option.isSome_iff_exists.1 hreg
    exact ⟨_, gathered_registerMove hf hd hw hreg hrm⟩
  · obtain ⟨rm, hrm⟩ := hmode.rmForm_ok hdisp
    obtain ⟨imm, himm⟩ := Option.isSome_iff_exists.1 (hfits.isSome himm)
    obtain ⟨w, hw, -⟩ := hfits
    exact ⟨_, gathered_immediateToRm hf hw hrm himm⟩
  · obtain ⟨imm, himm⟩ := Option.isSome_iff_exists.1 (hfits.isSome himm)
    obtain ⟨reg, hreg⟩ := Option.isSome_iff_exists.1 hreg
    obtain ⟨w, hw, -⟩ := hfits
    exact ⟨_, gathered_immediateToReg hf hw hreg himm⟩

theorem exists_fieldCount {n : ByteCount} (h : n ≠ .zero) : ∃ two, n = fieldCount two := by
  cases n with
  | zero => exact absurd rfl h
  | one => exact ⟨false, rfl⟩
  | two => exact ⟨true, rfl⟩

theorem transition_awaitingOpcodeByte {s : State} (hr : s.rst = false) (hp : s.phase = .awaitingOpcodeByte) :
    ∃ t, Transition s t := by
  by_cases hlt : s.pos < s.len
  · by_cases hf : classify (Memory.read s.mem s.pos) = .unrecognized
    · exact ⟨_, .unrecognized _ hr hp hlt rfl hf⟩
    · exact ⟨_, .opcodeByte _ hr hp hlt rfl hf⟩
  · exact ⟨_, .endOfStream hr hp hlt⟩

theorem transition_awaitingModeByte {s : State} (hr : s.rst = false) (hp : s.phase = .awaitingModeByte)
    (hawait : ModeByteAwaited s.acc) (hstart : StartFits s) : ∃ t, Transition s t := by
  obtain ⟨start, hs, -⟩ := hstart
  obtain ⟨hwide, -, -, -, -, -, -, hfamily⟩ := hawait
  obtain ⟨w, hw⟩ := Option.isSome_iff_exists.1 hwide
  by_cases hlt : s.pos < s.len
  · obtain ⟨hf, -⟩ | ⟨hf, -⟩ := hfamily
    · exact ⟨_, .modeByte _ _ w hr hp hlt rfl hf hw (by decide) (fun h => by cases h.1)⟩
    · by_cases hreg : regBits (Memory.read s.mem s.pos) = 0#3
      · exact ⟨_, .modeByte _ _ w hr hp hlt rfl hf hw (by decide) (fun h => h.2 hreg)⟩
      · exact ⟨_, .invalid _ w start hr hp hlt rfl hf hw hreg hs⟩
  · exact ⟨_, .truncatedAtMode start hr hp hlt hs⟩

theorem transition_awaitingField {s : State} (hr : s.rst = false) (hp : s.phase = .awaitingDisplacementOrImmediate)
    (hstart : StartFits s) (hpending : ¬ (s.acc.pendingBytes.disp = .zero ∧ s.acc.pendingBytes.imm = .zero)) :
    ∃ t, Transition s t := by
  obtain ⟨start, hs, -⟩ := hstart
  by_cases hdisp : s.acc.pendingBytes.disp = .zero
  · obtain ⟨two, htwo⟩ := exists_fieldCount fun himm => hpending ⟨hdisp, himm⟩
    by_cases hlt : fieldBytes two ≤ s.len - s.pos
    · exact ⟨_, .immediate two hr hp hdisp htwo hlt⟩
    · exact ⟨_, .truncatedAtField two start hr hp hlt (.inr ⟨hdisp, htwo⟩) hs⟩
  · obtain ⟨two, htwo⟩ := exists_fieldCount hdisp
    by_cases hlt : fieldBytes two ≤ s.len - s.pos
    · exact ⟨_, .displacement two hr hp htwo hlt⟩
    · exact ⟨_, .truncatedAtField two start hr hp hlt (.inl htwo) hs⟩

theorem transition_complete {s : State} (hr : s.rst = false) (hp : s.phase = .complete) (hfields : FieldsFit s.acc)
    (hstart : StartFits s) (hpending : s.acc.pendingBytes = PendingBytes.nothing) : ∃ t, Transition s t := by
  obtain ⟨start, hs, -⟩ := hstart
  obtain ⟨i, hi⟩ := hfields.gathered_ok hpending
  obtain ⟨operands, ho⟩ := gathered_operands hi
  exact ⟨_, .completion i operands start hr hp hi ho hs⟩

theorem RunInv.exists_transition {s : State} (hinv : RunInv s) : ∃ t, Transition s t := by
  cases hr : s.rst with
  | true => exact ⟨_, .reset hr⟩
  | false =>
    cases hp : s.phase with
    | awaitingOpcodeByte => exact transition_awaitingOpcodeByte hr hp
    | awaitingModeByte =>
      obtain ⟨hawait, hstart⟩ := hinv.modeByteAwaited hp
      exact transition_awaitingModeByte hr hp hawait hstart
    | awaitingDisplacementOrImmediate =>
      obtain ⟨-, hstart, hpending⟩ := hinv.fieldsAwaited hp
      exact transition_awaitingField hr hp hstart hpending
    | complete =>
      obtain ⟨hfields, hstart, hpending⟩ := hinv.fieldsComplete hp
      exact transition_complete hr hp hfields hstart hpending
    | done | faulted => exact ⟨_, .idle hr (by rw [hp]; rfl)⟩

/-- Settles O43, phase by phase. -/
theorem invariantGivesProgress : Obligations.InvariantGivesProgress := by
  intro s hinv
  obtain ⟨t, htrans⟩ := hinv.exists_transition
  exact ⟨t, step_of_transition htrans⟩

/-! #### The end of a run -/

/-- More than the steps to a terminal phase can be: two for each byte left, and what the phase itself still takes. -/
def stepsLeft (s : State) : Nat :=
  match s.phase with
  | .awaitingOpcodeByte => 2 * (s.len - s.pos) + 1
  | .awaitingModeByte => 2 * (s.len - s.pos) + 2
  | .awaitingDisplacementOrImmediate => 2 * (s.len - s.pos) + 1
  | .complete => 2 * (s.len - s.pos) + 2
  | .done => 0
  | .faulted => 0

theorem stepsLeft_le (s : State) : stepsLeft s ≤ 2 * (s.len - s.pos) + 2 := by
  unfold stepsLeft
  split <;> omega

theorem stepsLeft_pos {s : State} (h : s.phase.isTerminal = false) : 0 < stepsLeft s := by
  cases hp : s.phase with
  | done | faulted => rw [hp] at h; cases h
  | _ => simp [stepsLeft, hp]

theorem one_le_fieldBytes (two : Bool) : 1 ≤ fieldBytes two := by cases two <;> decide

/-- A transition that consumes a byte has room for any phase after it. -/
theorem stepsLeft_lt_of_read {s t : State} (hs : s.phase.isAwaiting = true) (hlen : t.len = s.len) (hpos : s.pos < t.pos)
    (hle : t.pos ≤ t.len) : stepsLeft t < stepsLeft s := by
  have ht := stepsLeft_le t
  have hs' : 2 * (s.len - s.pos) + 1 ≤ stepsLeft s := by
    cases hp : s.phase with
    | awaitingOpcodeByte | awaitingModeByte | awaitingDisplacementOrImmediate => simp [stepsLeft, hp]
    | complete | done | faulted => rw [hp] at hs; cases hs
  omega

/-- R121, R124: each transition from a phase that is not terminal brings the end of the run nearer. -/
theorem Transition.stepsLeft_lt {s t : State} (h : Transition s t) (hr : s.rst = false) (hpos : s.pos ≤ s.len)
    (hp : s.phase.isTerminal = false) : stepsLeft t < stepsLeft s := by
  have hle := h.pos_le_len hpos
  cases h with
  | reset hrst => simp [hr] at hrst
  | endOfStream | unrecognized | invalid | truncatedAtMode | truncatedAtField => exact stepsLeft_pos hp
  | opcodeByte _ _ hphase => exact stepsLeft_lt_of_read (by rw [hphase]; rfl) (by simp) (by simp) hle
  | modeByte _ _ _ _ hphase => exact stepsLeft_lt_of_read (by rw [hphase]; rfl) (by simp) (by simp) hle
  | displacement two _ hphase | immediate two _ hphase =>
    have := one_le_fieldBytes two
    exact stepsLeft_lt_of_read (by rw [hphase]; rfl) (by simp) (by simp; omega) hle
  | completion _ _ _ _ hphase => simp [stepsLeft, hphase]
  | idle _ hterm => simp [hp] at hterm

theorem Transition.keeps_rst {s t : State} (h : Transition s t) : t.rst = false ∨ t.rst = s.rst := by
  cases h with
  | reset => exact .inl rfl
  | _ => exact .inr (by simp)

theorem RunInv.reaches_terminal {s : State} (hinv : RunInv s) (hr : s.rst = false) {bound : Nat}
    (hbound : stepsLeft s ≤ bound) : ∃ n t, n ≤ bound ∧ stepMany n s = .next t ∧ t.phase.isTerminal = true := by
  induction bound generalizing s with
  | zero =>
    cases hp : s.phase.isTerminal with
    | true => exact ⟨0, s, le_rfl, rfl, hp⟩
    | false => exact absurd (stepsLeft_pos hp) (by omega)
  | succ bound ih =>
    cases hp : s.phase.isTerminal with
    | true => exact ⟨0, s, Nat.zero_le _, rfl, hp⟩
    | false =>
      obtain ⟨t, htrans⟩ := hinv.exists_transition
      have hstep := step_of_transition htrans
      have hlt := htrans.stepsLeft_lt hr hinv.position hp
      have hrt : t.rst = false := by
        obtain h | h := htrans.keeps_rst
        · exact h
        · exact h.trans hr
      obtain ⟨n, u, hn, hrun, hend⟩ := ih (invariantIsKept s t hinv hstep) hrt (by omega)
      exact ⟨n + 1, u, by omega, by rw [stepMany_succ_of_step hstep, hrun], hend⟩

/-- Settles O52: `stepsLeft` falls with every step. -/
theorem runsEnd : Obligations.RunsEnd :=
  fun s hinv hr => hinv.reaches_terminal hr (stepsLeft_le s)

/-! #### Outcomes -/

/-- Settles O47: a state with an outcome is in a terminal phase, where a step only idles the cursor ports. -/
theorem outcomeIsFinal : Obligations.OutcomeIsFinal := by
  intro s t final hinv hr herr hstep
  have hp : s.phase.isTerminal = true := by
    by_contra hp
    have hnone := hinv.err_eq_none (Bool.eq_false_of_not_eq_true hp)
    cases hnone.symm.trans herr
  cases hstep.symm.trans (step_terminal hr hp)
  exact ⟨herr, rfl, rfl, rfl, rfl⟩

/-- R195, R198: the transitions that record an outcome, each with what it was taken on. -/
theorem Transition.new_outcome {s t : State} (h : Transition s t) {final : FinalOutcome} (ht : t.err = some final)
    (hs : s.err ≠ some final) :
    (final = .endOfStream ∧ s.phase = .awaitingOpcodeByte ∧ ¬ s.pos < s.len) ∨
    (∃ start, final = .truncatedInstruction s.pos start ∧ s.acc.instrStart = some start ∧
      ((s.phase = .awaitingModeByte ∧ ¬ s.pos < s.len) ∨
       ∃ two, s.phase = .awaitingDisplacementOrImmediate ∧ ¬ fieldBytes two ≤ s.len - s.pos ∧
        (s.acc.pendingBytes.disp = fieldCount two ∨
          (s.acc.pendingBytes.disp = .zero ∧ s.acc.pendingBytes.imm = fieldCount two)))) ∨
    (∃ b, final = .unrecognizedOpcode b s.pos ∧ s.phase = .awaitingOpcodeByte ∧ s.byteAt s.pos = some b ∧
      classify b = .unrecognized) ∨
    (∃ b start, final = .invalidFieldCombination b s.pos start ∧ s.phase = .awaitingModeByte ∧
      s.byteAt s.pos = some b ∧ s.acc.instrStart = some start ∧
      s.acc.opcodeFamily = some .immediateToRegisterOrMemory ∧ regBits b ≠ 0#3) := by
  cases h with
  | reset => cases ht
  | opcodeByte | modeByte | displacement | immediate | completion | idle => exact absurd (by simpa using ht) hs
  | endOfStream _ hp hend =>
    cases ht
    exact .inl ⟨rfl, hp, hend⟩
  | truncatedAtMode start _ hp hend hstart =>
    cases ht
    exact .inr (.inl ⟨start, rfl, hstart, .inl ⟨hp, hend⟩⟩)
  | truncatedAtField two start _ hp hend hpending hstart =>
    cases ht
    exact .inr (.inl ⟨start, rfl, hstart, .inr ⟨two, hp, hend, hpending⟩⟩)
  | unrecognized b _ hp hlt hb hf =>
    cases ht
    exact .inr (.inr (.inl ⟨b, rfl, hp, by rw [State.byteAt, if_pos hlt, hb], hf⟩))
  | invalid b w start _ hp hlt hb hf _ hreg hstart =>
    cases ht
    exact .inr (.inr (.inr ⟨b, start, rfl, hp, by rw [State.byteAt, if_pos hlt, hb], hstart, hf, hreg⟩))

/-- Settles O46: the ways to an outcome, with the ranges the statement gives for bytes left and byte values. -/
theorem outcomesAriseOnlyThere : Obligations.OutcomesAriseOnlyThere := by
  intro s t final _ hstep ht hs
  obtain ⟨rfl, hp, hend⟩ | ⟨start, rfl, hstart, hwhere⟩ | ⟨b, rfl, hp, hb, hf⟩ | ⟨b, start, rfl, hp, hb, hstart, hf, hreg⟩ :=
    (step_transition hstep).new_outcome ht hs
  · exact ⟨fun _ => ⟨hp, not_lt.1 hend⟩, nofun, nofun, nofun⟩
  · refine ⟨nofun, ?_, nofun, nofun⟩
    rintro _ _ ⟨⟩
    refine ⟨rfl, hstart, ?_⟩
    obtain ⟨hp, hend⟩ | ⟨two, hp, hend, hpending⟩ := hwhere
    · exact .inl ⟨hp, not_lt.1 hend⟩
    · cases two with
      | false => exact .inr (.inl ⟨hp, by rw [fieldBytes_false] at hend; omega, hpending⟩)
      | true => exact .inr (.inr ⟨hp, by rw [fieldBytes_true] at hend; omega, hpending⟩)
  · refine ⟨nofun, nofun, ?_, nofun⟩
    rintro _ _ ⟨⟩
    exact ⟨hp, rfl, hb, (classify_unrecognized b).1 hf⟩
  · refine ⟨nofun, nofun, nofun, ?_⟩
    rintro _ _ _ ⟨⟩
    exact ⟨hp, rfl, hb, hstart, hf, mt (regBits_eq_zero_iff b).2 hreg⟩

/-- Settles O50: a record leaves at completion alone, with the operands of one instruction. -/
theorem emittedOperandsShareWidth : Obligations.EmittedOperandsShareWidth := by
  intro s t record hstep hres w w' hdst hsrc
  have htrans := step_transition hstep
  cases hr : s.rst with
  | true =>
    cases hstep.symm.trans (step_of_transition (.reset hr))
    simp at hres
  | false =>
    obtain hsame | ⟨i, operands, start, -, -, ho, hrec⟩ | ⟨final, hfinal, -, -⟩ := htrans.emission hr
    · simp [hsame] at hres
    · obtain ⟨wide, hdstFits, hsrcFits⟩ := operandsOf_fitsWidth ho
      have hrecord : record = completedRecord operands start s := by simpa [hrec] using hres.symm
      subst hrecord
      exact (hdstFits w hdst).trans (hsrcFits w' hsrc).symm
    · simp [hfinal] at hres

/-! #### What a run depends on -/

/-- The same buffer, position, phase and accumulator after another past: another outcome, other items, another exchange. -/
def withPast (err : Option FinalOutcome) (results : List ResultItem) (cur : Option CursorExchange) (s : State) : State :=
  { s with err := err, results := results, cur := cur }

theorem eq_withPast {s u : State} (hmem : u.mem = s.mem) (hlen : u.len = s.len) (hpos : u.pos = s.pos)
    (hphase : u.phase = s.phase) (hacc : u.acc = s.acc) (hrst : u.rst = s.rst) :
    u = withPast u.err u.results u.cur s := by
  obtain ⟨⟩ := u
  subst hmem hlen hpos hphase hacc hrst
  rfl

/-- R35: a transition neither reads nor removes what was emitted, and reads neither the outcome nor the recorded exchange. -/
theorem Transition.withPast {s t : State} (h : Transition s t) (hr : s.rst = false) (err : Option FinalOutcome)
    (results : List ResultItem) (cur : Option CursorExchange) :
    ∃ items err' cur', t.results = s.results ++ items ∧
      Transition (withPast err results cur s) (withPast err' (results ++ items) cur' t) := by
  cases h with
  | reset hrst => simp [hr] at hrst
  | endOfStream hr hp hend => exact ⟨[_], _, _, rfl, .endOfStream (s := Machine.withPast err results cur s) hr hp hend⟩
  | opcodeByte b0 hr hp hlt hb hf =>
    have htrans := Transition.opcodeByte (s := Machine.withPast err results cur s) b0 hr hp hlt hb hf
    refine ⟨[], err, some ⟨.readByte, .byte b0⟩, by simp, ?_⟩
    rw [List.append_nil]
    cases hc : classify b0 with
    | unrecognized => exact absurd hc hf
    | _ => rw [hc] at htrans; exact htrans
  | unrecognized b0 hr hp hlt hb hf =>
    exact ⟨[_], _, _, rfl, .unrecognized (s := Machine.withPast err results cur s) b0 hr hp hlt hb hf⟩
  | modeByte b1 f w hr hp hlt hb hf hw hu hv =>
    refine ⟨[], err, some ⟨.readByte, .byte b1⟩, by simp, ?_⟩
    rw [List.append_nil]
    exact .modeByte (s := Machine.withPast err results cur s) b1 f w hr hp hlt hb hf hw hu hv
  | invalid b1 w start hr hp hlt hb hf hw hv hs =>
    exact ⟨[_], _, _, rfl, .invalid (s := Machine.withPast err results cur s) b1 w start hr hp hlt hb hf hw hv hs⟩
  | displacement two hr hp hd hlt =>
    refine ⟨[], err, (consumeField two s).cur, by simp, ?_⟩
    rw [List.append_nil]
    have htrans := Transition.displacement (s := Machine.withPast err results cur s) two hr hp hd hlt
    cases two <;> exact htrans
  | immediate two hr hp hd hi hlt =>
    refine ⟨[], err, (consumeField two s).cur, by simp, ?_⟩
    rw [List.append_nil]
    have htrans := Transition.immediate (s := Machine.withPast err results cur s) two hr hp hd hi hlt
    cases two <;> exact htrans
  | truncatedAtMode start hr hp hend hs =>
    exact ⟨[_], _, _, rfl, .truncatedAtMode (s := Machine.withPast err results cur s) start hr hp hend hs⟩
  | truncatedAtField two start hr hp hend hd hs =>
    exact ⟨[_], _, _, rfl, .truncatedAtField (s := Machine.withPast err results cur s) two start hr hp hend hd hs⟩
  | completion i operands start hr hp hg ho hs =>
    exact ⟨[_], err, none, rfl,
      .completion (s := Machine.withPast err results cur s) i operands start hr hp hg ho hs⟩
  | idle hr hp =>
    refine ⟨[], err, none, by simp, ?_⟩
    rw [List.append_nil]
    exact .idle (s := Machine.withPast err results cur s) hr hp

theorem stepMany_withPast {n : Nat} {s s' : State} (hr : s.rst = false) (h : stepMany n s = .next s')
    (err : Option FinalOutcome) (results : List ResultItem) (cur : Option CursorExchange) :
    ∃ items err' cur', s'.results = s.results ++ items ∧
      stepMany n (withPast err results cur s) = .next (withPast err' (results ++ items) cur' s') := by
  induction n generalizing s err results cur with
  | zero =>
    cases h
    exact ⟨[], err, cur, by simp, by rw [List.append_nil]; rfl⟩
  | succ n ih =>
    cases hstep : step s with
    | fault f => simp [stepMany, hstep] at h
    | refused r => simp [stepMany, hstep] at h
    | next t =>
      rw [stepMany_succ_of_step hstep] at h
      have htrans := step_transition hstep
      have hrt : t.rst = false := htrans.keeps_rst.elim id (·.trans hr)
      obtain ⟨items, err₁, cur₁, hitems, htrans'⟩ := htrans.withPast hr err results cur
      obtain ⟨more, err₂, cur₂, hmore, hrun⟩ := ih hrt h err₁ (results ++ items) cur₁
      refine ⟨items ++ more, err₂, cur₂, by rw [hmore, hitems, List.append_assoc], ?_⟩
      rw [stepMany_succ_of_step (step_of_transition htrans'), hrun, List.append_assoc]

/-- Settles O51: the other run is the same run after another past. -/
theorem earlierResultsDoNotMatter : Obligations.EarlierResultsDoNotMatter := by
  intro n s u s' hmem hlen hpos hphase hacc hrs hru hrun
  obtain ⟨items, err, cur, hitems, hrun'⟩ := stepMany_withPast hrs hrun u.err u.results u.cur
  rw [← eq_withPast hmem hlen hpos hphase hacc (hru.trans hrs.symm)] at hrun'
  exact ⟨_, items, hrun', rfl, rfl, rfl, hitems, rfl⟩

/-! #### Several instances -/

/-- A step at one place of the list: the decoder there takes a step, and every other stays. -/
theorem stepInstance_next {k : Nat} {all after : List State} (h : stepInstance k all = .next after) :
    after.length = all.length ∧ (∀ j, j ≠ k → after[j]? = all[j]?) ∧
      ∀ s, all[k]? = some s → ∃ t, step s = .next t ∧ after[k]? = some t := by
  unfold stepInstance at h
  split at h
  next hk =>
    cases h
    exact ⟨rfl, fun _ _ => rfl, fun s hs => by simp [hs] at hk⟩
  next s hk =>
    split at h
    next t hstep =>
      cases h
      refine ⟨List.length_set, fun j hj => List.getElem?_set_ne hj.symm, fun s' hs' => ?_⟩
      cases hk.symm.trans hs'
      obtain ⟨hlt, -⟩ := List.getElem?_eq_some_iff.1 hk
      exact ⟨t, hstep, List.getElem?_set_self hlt⟩
    · cases h
    · cases h

/-- Settles O57, by induction on the schedule: its head is a step of the decoder at the place it names and of no other. -/
theorem instancesAreIndependent : Obligations.InstancesAreIndependent := by
  intro schedule
  induction schedule with
  | nil =>
    intro all after h
    cases h
    exact ⟨rfl, fun k s hs => ⟨s, hs, rfl⟩⟩
  | cons j schedule ih =>
    intro all after h
    cases hj : stepInstance j all with
    | fault f => simp [runSchedule, hj] at h
    | refused r => simp [runSchedule, hj] at h
    | next middle =>
      simp only [runSchedule, hj] at h
      obtain ⟨hlength, hothers, hself⟩ := stepInstance_next hj
      obtain ⟨hlength', hruns⟩ := ih middle after h
      refine ⟨hlength'.trans hlength, fun k s hs => ?_⟩
      by_cases hk : k = j
      · subst hk
        obtain ⟨t, hstep, ht⟩ := hself s hs
        obtain ⟨u, hu, hrun⟩ := hruns k t ht
        exact ⟨u, hu, by rw [List.count_cons_self, stepMany_succ_of_step hstep, hrun]⟩
      · obtain ⟨u, hu, hrun⟩ := hruns k s ((hothers k hk).trans hs)
        exact ⟨u, hu, by rw [List.count_cons_of_ne (Ne.symm hk), hrun]⟩

end Sys2Proof.Machine

namespace Sys2Proof

/-! ### Family other: first bytes, truncated bytes and worked encodings -/

/-! #### The first byte -/

theorem classify_registerMove (b0 : Byte) :
    classify b0 = .registerOrMemoryToRegister ↔ 0x88 ≤ b0.toNat ∧ b0.toNat ≤ 0x8B := by
  revert b0; decide +kernel

theorem classify_immediateToRm (b0 : Byte) :
    classify b0 = .immediateToRegisterOrMemory ↔ b0.toNat = 0xC6 ∨ b0.toNat = 0xC7 := by
  revert b0; decide +kernel

theorem classify_immediateToReg (b0 : Byte) :
    classify b0 = .immediateToRegister ↔ 0xB0 ≤ b0.toNat ∧ b0.toNat ≤ 0xBF := by
  revert b0; decide +kernel

/-- Settles O13: the masks of R91 as ranges, and the two round trips for the bytes outside them. -/
theorem firstByteDecidesFamily : Obligations.FirstByteDecidesFamily :=
  fun b0 rest =>
    ⟨classify_registerMove b0, classify_immediateToRm b0, classify_immediateToReg b0,
      fun h => (encodeAfterDecode _ _ _ h).1, fun hb => decode_unrecognized hb rest⟩

/-- Bit `n` of a byte, as the parity of its quotient. -/
theorem getLsbD_eq_decide (b : Byte) (n : Nat) : b.getLsbD n = decide (b.toNat / 2 ^ n % 2 = 1) :=
  Nat.testBit_eq_decide_div_mod_eq

theorem dirBit_eq (b0 : Byte) :
    dirBit b0 = if b0.toNat / 2 % 2 = 1 then .destinationIsRegister else .sourceIsRegister := by
  rw [dirBit, getLsbD_eq_decide]
  simp only [Nat.pow_one, decide_eq_true_eq]

/-- Bit 0 is the width bit of the two families with a mode byte (R93). -/
theorem getLsbD_zero_eq (b0 : Byte) : b0.getLsbD 0 = decide (b0.toNat % 2 = 1) := by
  rw [getLsbD_eq_decide, Nat.pow_zero, Nat.div_one]

theorem getLsbD_three_eq (b0 : Byte) : b0.getLsbD 3 = decide (b0.toNat / 8 % 2 = 1) :=
  getLsbD_eq_decide b0 3

theorem regOfOpcode_eq (b0 : Byte) : regOfOpcode b0 = BitVec.ofNat 3 (b0.toNat % 8) := by
  apply BitVec.eq_of_toNat_eq
  simp [regOfOpcode]

/-! #### The mode byte, over plain numbers -/

theorem regBits_eq (b1 : Byte) : regBits b1 = BitVec.ofNat 3 (b1.toNat / 8 % 8) := by
  apply BitVec.eq_of_toNat_eq
  rw [toNat_regBits, BitVec.toNat_ofNat, Nat.mod_mod]

theorem rmBits_eq (b1 : Byte) : rmBits b1 = BitVec.ofNat 3 (b1.toNat % 8) := by
  apply BitVec.eq_of_toNat_eq
  rw [toNat_rmBits, BitVec.toNat_ofNat, Nat.mod_mod]

/-- The extractor's table is that of R64 over the numbers of the sub-fields. -/
theorem modeOf_eq_modeTable (b1 : Byte) :
    modeOf (modeBits b1) (rmBits b1) = Machine.modeTable (b1.toNat / 64) (b1.toNat % 8) := by
  have htable : ∀ (mod : BitVec 2) (rm : Index), modeOf mod rm = Machine.modeTable mod.toNat rm.toNat := by decide
  rw [htable, toNat_modeBits, toNat_rmBits]

/-! #### Bytes that hold no whole instruction -/

/-- A field that is not whole becomes whole by some bytes more. -/
theorem exists_completion_of_takeField_eq_none {n : ByteCount} {bytes : List Byte} (h : takeField n bytes = none) :
    ∃ missing v, missing ≠ [] ∧ ∀ rest, takeField n (bytes ++ missing ++ rest) = some (some v, rest) := by
  match n, bytes, h with
  | .one, [], _ => exact ⟨[0], _, by simp, fun _ => rfl⟩
  | .two, [], _ => exact ⟨[0, 0], _, by simp, fun _ => rfl⟩
  | .two, [lo], _ => exact ⟨[0], _, by simp, fun _ => rfl⟩
  | .zero, bytes, h => simp at h
  | .two, lo :: hi :: bytes, h => cases h

/-- A field is the bytes of its count in front of the rest, whatever stands after them. -/
theorem takeField_append {n : ByteCount} {bytes rest : List Byte} {v : Option Word}
    (h : takeField n bytes = some (v, rest)) :
    bytes.length = n.toNat + rest.length ∧ ∀ more, takeField n (bytes ++ more) = some (v, rest ++ more) := by
  match n, bytes, h with
  | .zero, bytes, h =>
    rw [takeField_zero] at h
    cases h
    exact ⟨(Nat.zero_add _).symm, fun more => takeField_zero _⟩
  | .one, b :: bytes, h =>
    cases h
    exact ⟨Nat.add_comm _ 1, fun more => rfl⟩
  | .two, lo :: hi :: bytes, h =>
    cases h
    exact ⟨Nat.add_comm _ 2, fun more => rfl⟩

theorem exists_completion_of_takeRm_eq_none {b1 : Byte} {bytes : List Byte} (h : takeRm b1 bytes = none) :
    ∃ missing rm, missing ≠ [] ∧ ∀ rest, takeRm b1 (bytes ++ missing ++ rest) = some (rm, rest) := by
  obtain ⟨missing, v, hne, htake⟩ := exists_completion_of_takeField_eq_none (takeRm_eq_none_iff.1 h)
  exact ⟨missing, _, hne, fun rest => takeRm_eq_some_iff.2 ⟨_, htake rest, rfl⟩⟩

theorem takeRm_append {b1 : Byte} {bytes rest : List Byte} {rm : RmForm} (h : takeRm b1 bytes = some (rm, rest)) :
    bytes.length = (modeOf (modeBits b1) (rmBits b1)).2.toNat + rest.length ∧
      ∀ more, takeRm b1 (bytes ++ more) = some (rm, rest ++ more) := by
  obtain ⟨disp, hfield, rfl⟩ := takeRm_eq_some_iff.1 h
  obtain ⟨hlength, happend⟩ := takeField_append hfield
  exact ⟨hlength, fun more => takeRm_eq_some_iff.2 ⟨disp, happend more, rfl⟩⟩

/-- A mode byte of reg 0 without displacement, `mod` 3. -/
def plainModeByte : Byte := 0xC0

theorem regBits_plainModeByte : regBits plainModeByte = 0#3 := rfl

theorem takeRm_plainModeByte (rest : List Byte) : takeRm plainModeByte rest = some (.registerDirect 0, rest) := by
  have hmode : modeOf (modeBits plainModeByte) (rmBits plainModeByte) = (.registerDirect, .zero) := by decide
  rw [takeRm, hmode, takeField_zero]
  rfl

/-- An immediate of 0 is in range at both widths. -/
theorem takeField_zeroImm {f : Family} (hf : f = .immediateToRegisterOrMemory ∨ f = .immediateToRegister) (w : Bool) :
    takeField (nImm f w) (encodeImm w 0) = some (some 0, []) := by
  have h := takeField_imm (w := w) (imm := 0) (by cases w <;> decide) f hf []
  rwa [List.append_nil] at h

/-- Some bytes more make the bytes a whole MOV; `consumed` of them precede the field that is not whole. -/
def CompletesToMov (bytes : List Byte) (consumed : Nat) : Prop :=
  1 ≤ consumed ∧ consumed ≤ bytes.length ∧
    ∃ missing i, missing ≠ [] ∧ Machine.operandsOf i ≠ none ∧ decode (bytes ++ missing) = .ok (i, [])

theorem operandsOf_movRegister_ne_none (d : Direction) (w : Bool) (reg : Index) (rm : RmForm) :
    Machine.operandsOf (rm.movRegister d w reg) ≠ none := by
  rw [Machine.rmForm_movRegister_operands]
  exact Option.some_ne_none _

theorem operandsOf_movRmImm_ne_none (w : Bool) (imm : Word) (rm : RmForm) :
    Machine.operandsOf (rm.movRmImm w imm) ≠ none := by
  rw [Machine.rmForm_movRmImm_operands]
  exact Option.some_ne_none _

theorem operandsOf_movRegImm_ne_none (w : Bool) (reg : Index) (imm : Word) :
    Machine.operandsOf (.movRegImm w reg imm) ≠ none :=
  Option.some_ne_none _

/-- The three formats, once their fields are read. -/
theorem decode_registerMove {b0 b1 : Byte} {bytes rest : List Byte} {rm : RmForm}
    (hf : classify b0 = .registerOrMemoryToRegister) (hrm : takeRm b1 bytes = some (rm, rest)) :
    decode (b0 :: b1 :: bytes) =
      .ok (rm.movRegister (dirBit b0) (widthBit .registerOrMemoryToRegister b0) (regBits b1), rest) := by
  simp only [decode, hf, decodeRmReg, hrm]

theorem decode_immediateToRm {b0 b1 : Byte} {bytes afterDisp rest : List Byte} {rm : RmForm} {imm : Word}
    (hf : classify b0 = .immediateToRegisterOrMemory) (hreg : regBits b1 = 0#3)
    (hrm : takeRm b1 bytes = some (rm, afterDisp))
    (himm : takeField (nImm .immediateToRegisterOrMemory (widthBit .immediateToRegisterOrMemory b0)) afterDisp =
      some (some imm, rest)) :
    decode (b0 :: b1 :: bytes) = .ok (rm.movRmImm (widthBit .immediateToRegisterOrMemory b0) imm, rest) := by
  simp only [decode, hf, decodeImmRm, hreg, ne_eq, not_true, if_false, hrm, himm, Option.getD_some]

theorem decode_immediateToReg {b0 : Byte} {bytes rest : List Byte} {imm : Word} (hf : classify b0 = .immediateToRegister)
    (himm : takeField (nImm .immediateToRegister (widthBit .immediateToRegister b0)) bytes = some (some imm, rest)) :
    decode (b0 :: bytes) = .ok (.movRegImm (widthBit .immediateToRegister b0) (regOfOpcode b0) imm, rest) := by
  simp only [decode, hf, decodeImmReg, himm, Option.getD_some]

theorem completesToMov_of_decodeRmReg {b0 : Byte} (hf : classify b0 = .registerOrMemoryToRegister) {bytes : List Byte}
    {consumed : Nat} (h : decodeRmReg b0 bytes = .error (.truncated consumed)) :
    CompletesToMov (b0 :: bytes) consumed := by
  cases bytes with
  | nil =>
    cases h
    exact ⟨le_rfl, le_rfl, [plainModeByte], _, by simp, operandsOf_movRegister_ne_none _ _ _ _,
      decode_registerMove hf (takeRm_plainModeByte [])⟩
  | cons b1 bytes =>
    cases hrm : takeRm b1 bytes with
    | some taken => simp [decodeRmReg, hrm] at h
    | none =>
      simp only [decodeRmReg, hrm] at h
      cases h
      obtain ⟨missing, rm, hne, htake⟩ := exists_completion_of_takeRm_eq_none hrm
      have hrm' := htake []
      rw [List.append_nil] at hrm'
      exact ⟨by simp, by simp, missing, _, hne, operandsOf_movRegister_ne_none _ _ _ _, decode_registerMove hf hrm'⟩

theorem completesToMov_of_decodeImmRm {b0 : Byte} (hf : classify b0 = .immediateToRegisterOrMemory) {bytes : List Byte}
    {consumed : Nat} (h : decodeImmRm b0 bytes = .error (.truncated consumed)) :
    CompletesToMov (b0 :: bytes) consumed := by
  have hzero := takeField_zeroImm (.inl rfl) (widthBit .immediateToRegisterOrMemory b0)
  cases bytes with
  | nil =>
    cases h
    exact ⟨le_rfl, le_rfl, plainModeByte :: encodeImm _ 0, _, by simp, operandsOf_movRmImm_ne_none _ _ _,
      decode_immediateToRm hf regBits_plainModeByte (takeRm_plainModeByte _) hzero⟩
  | cons b1 bytes =>
    by_cases hreg : regBits b1 = 0#3
    · simp only [decodeImmRm, hreg, ne_eq, not_true, if_false] at h
      cases hrm : takeRm b1 bytes with
      | none =>
        simp only [hrm] at h
        cases h
        obtain ⟨missing, rm, hne, htake⟩ := exists_completion_of_takeRm_eq_none hrm
        have hrm' := htake (encodeImm (widthBit .immediateToRegisterOrMemory b0) 0)
        rw [List.append_assoc] at hrm'
        exact ⟨by simp, by simp, missing ++ encodeImm _ 0, _, by simp [hne], operandsOf_movRmImm_ne_none _ _ _,
          decode_immediateToRm hf hreg hrm' hzero⟩
      | some taken =>
        obtain ⟨rm, afterDisp⟩ := taken
        simp only [hrm] at h
        split at h
        next himm =>
          cases h
          obtain ⟨hlength, happend⟩ := takeRm_append hrm
          obtain ⟨missing, imm, hne, htake⟩ := exists_completion_of_takeField_eq_none himm
          have himm' := htake []
          rw [List.append_nil] at himm'
          refine ⟨by omega, ?_, missing, _, hne, operandsOf_movRmImm_ne_none _ _ _,
            decode_immediateToRm hf hreg (happend missing) himm'⟩
          simp only [List.length_cons, hlength]
          omega
        next => cases h
    · simp [decodeImmRm, hreg] at h

theorem completesToMov_of_decodeImmReg {b0 : Byte} (hf : classify b0 = .immediateToRegister) {bytes : List Byte}
    {consumed : Nat} (h : decodeImmReg b0 bytes = .error (.truncated consumed)) :
    CompletesToMov (b0 :: bytes) consumed := by
  dsimp only [decodeImmReg] at h
  split at h
  next himm =>
    cases h
    obtain ⟨missing, imm, hne, htake⟩ := exists_completion_of_takeField_eq_none himm
    have himm' := htake []
    rw [List.append_nil] at himm'
    exact ⟨le_rfl, by simp, missing, _, hne, operandsOf_movRegImm_ne_none _ _ _, decode_immediateToReg hf himm'⟩
  next => cases h

theorem completesToMov_of_truncated {bytes : List Byte} {consumed : Nat}
    (h : decode bytes = .error (.truncated consumed)) : CompletesToMov bytes consumed := by
  cases bytes with
  | nil => cases h
  | cons b0 bytes =>
    rw [decode] at h
    split at h
    next hf => exact completesToMov_of_decodeRmReg hf h
    next hf => exact completesToMov_of_decodeImmRm hf h
    next hf => exact completesToMov_of_decodeImmReg hf h
    next => cases h

/-- Settles O16: what the completed bytes decode to encodes to them. -/
theorem truncatedBytesArePrefixes : Obligations.TruncatedBytesArePrefixes := by
  intro bytes consumed h
  obtain ⟨hmin, hmax, missing, i, hne, hmov, hdecode⟩ := completesToMov_of_truncated h
  obtain ⟨hwf, hbytes⟩ := encodeAfterDecode _ _ _ hdecode
  rw [List.append_nil] at hbytes
  exact ⟨hmin, hmax, i, missing, hwf, hmov, hne, hbytes⟩

/-! #### Worked encodings -/

/-- Settles O18: with `mod` 3 the direction bit only swaps the two sub-fields, and it stands in the first byte. -/
theorem registerMovesHaveTwoEncodings : Obligations.RegisterMovesHaveTwoEncodings := by
  intro w a b
  have hdecode (d : Direction) (reg rm : Index) :
      decode [rmRegByte d w, modeByteOf 3 reg rm] = .ok ((RmForm.registerDirect rm).movRegister d w reg, []) :=
    decode_encodeRmReg (rm := .registerDirect rm) rfl d w reg []
  refine ⟨_, _, hdecode _ a b, hdecode _ b a, rfl, rfl, fun heq => ?_⟩
  rw [encode_movRegister, encode_movRegister, encodeRmReg, encodeRmReg, List.cons.injEq] at heq
  have hdir := congrArg dirBit heq.1
  rw [dirBit_rmRegByte, dirBit_rmRegByte] at hdir
  cases hdir

/-- Settles O17: each word, evaluated. -/
theorem workedWordsDecode : Obligations.WorkedWordsDecode := by
  refine ⟨?_, ?_, ?_, ?_, ?_, ?_, ?_⟩ <;> rfl

end Sys2Proof

namespace Sys2Proof.Machine

/-! ### Family other: single steps and meanings -/

/-! #### Reset and the host's ports -/

/-- Settles O2: the transition of R220. -/
theorem resetRequestStartsNewRun : Obligations.ResetRequestStartsNewRun :=
  fun _ hr => step_of_transition (.reset hr)

/-- Settles O3: a load keeps the request, and the reset that answers it keeps the loaded buffer. -/
theorem bufferIsLoadedUnderReset : Obligations.BufferIsLoadedUnderReset := by
  intro bytes s
  constructor
  · intro hr
    rw [loadBuffer, hr]
    rfl
  · intro hr
    refine ⟨_, if_pos hr, ?_⟩
    exact step_of_transition (.reset hr)

/-- Settles O7, by the cases of R43 and R44. -/
theorem exhaustedExactlyAtTheEnd : Obligations.ExhaustedExactlyAtTheEnd := by
  intro s hpos
  have hexhausted : isExhausted s = true ↔ s.pos = s.len := decide_eq_true_iff
  refine ⟨hexhausted, ?_, ?_⟩
  · rw [hexhausted]
    by_cases hlt : s.pos < s.len
    · simp [readByte_lt hlt, hlt.ne]
    · simp [readByte_end hlt, le_antisymm hpos (not_lt.1 hlt)]
  · rw [hexhausted]
    by_cases htwo : 2 ≤ s.len - s.pos
    · rw [readWord_lt htwo]
      exact ⟨nofun, fun h => by omega⟩
    · rw [readWord_end htwo]
      exact ⟨fun _ => by omega, fun _ => rfl⟩

/-! #### The transitions of the gathering -/

/-- Settles O19: the transition of R111. -/
theorem endOfStreamEndsRun : Obligations.EndOfStreamEndsRun :=
  fun _ hr hp hend => step_of_transition (.endOfStream hr hp hend.not_gt)

/-- Settles O20: the transition of R112 for each family, with the bits of the byte as parities. -/
theorem opcodeByteEstablishesFields : Obligations.OpcodeByteEstablishesFields := by
  intro s b0 hr hp hlt hb
  have hstep (hf : classify b0 ≠ .unrecognized) := step_of_transition (.opcodeByte b0 hr hp hlt hb.symm hf)
  refine ⟨fun hrange => ?_, fun hrange => ?_, fun hrange => ?_⟩
  · have hf := (classify_registerMove b0).2 hrange
    rw [hstep (by rw [hf]; decide), hf, ← dirBit_eq, ← getLsbD_zero_eq]
    rfl
  · have hf := (classify_immediateToRm b0).2 hrange
    rw [hstep (by rw [hf]; decide), hf, ← getLsbD_zero_eq]
    rfl
  · have hf := (classify_immediateToReg b0).2 hrange
    have himm : (if b0.toNat / 8 % 2 = 1 then ByteCount.two else .one) = nImm .immediateToRegister (b0.getLsbD 3) := by
      rw [getLsbD_three_eq]
      simp only [nImm, decide_eq_true_eq]
    rw [hstep (by rw [hf]; decide), hf, himm, ← getLsbD_three_eq, ← regOfOpcode_eq]
    rfl

/-- Settles O22: the transition of R114, with the sub-fields as numbers. -/
theorem modeByteEstablishesFields : Obligations.ModeByteEstablishesFields := by
  intro s b1 f w hr hp hlt hb hf hw hfamily
  have hknown : f ≠ .unrecognized := by
    rintro rfl
    simp at hfamily
  have hvalid : ¬ (f = .immediateToRegisterOrMemory ∧ regBits b1 ≠ 0#3) := by
    rintro ⟨rfl, hreg⟩
    obtain hother | ⟨-, hzero⟩ := hfamily
    · cases hother
    · exact hreg ((regBits_eq_zero_iff b1).2 hzero)
  have himm : nImm f w = if f = .registerOrMemoryToRegister then .zero else if w then .two else .one := by
    obtain rfl | ⟨rfl, -⟩ := hfamily <;> rfl
  refine ⟨_, _, _, _, step_of_transition (.modeByte b1 f w hr hp hlt hb.symm hf hw hknown hvalid),
    modeOf_eq_modeTable b1, himm, ?_⟩
  rw [← regBits_eq, ← rmBits_eq]
  rfl

/-- Settles O23: the transition of R115. -/
theorem invalidModeByteEndsRun : Obligations.InvalidModeByteEndsRun :=
  fun _ b1 w start hr hp hlt hb hf hw hs hreg =>
    step_of_transition (.invalid b1 w start hr hp hlt hb.symm hf hw (mt (regBits_eq_zero_iff b1).1 hreg) hs)

/-- Settles O25: both sizes are the one transition of R118. -/
theorem immediateIsGathered : Obligations.ImmediateIsGathered := by
  intro s hr hp hd
  constructor
  · intro hi hone
    have hstep := step_of_transition (.immediate false hr hp hd hi (Nat.le_sub_of_add_le' hone))
    exact ⟨_, _, hstep, toInt_fromByte _, rfl⟩
  · intro hi htwo
    have hstep := step_of_transition (.immediate true hr hp hd hi (Nat.le_sub_of_add_le' htwo))
    exact ⟨_, _, hstep, toInt_fromWord_wordAtPos s, rfl⟩

/-- R119 at a displacement or an immediate of which `fieldBytes two` bytes are not left. -/
theorem step_truncatedAtField {s : State} {start : Nat} (two : Bool) (hr : s.rst = false) (hs : s.acc.instrStart = some start)
    (hp : s.phase = .awaitingDisplacementOrImmediate) (hend : s.len < s.pos + fieldBytes two)
    (hpending : s.acc.pendingBytes.disp = fieldCount two ∨
      (s.acc.pendingBytes.disp = .zero ∧ s.acc.pendingBytes.imm = fieldCount two)) :
    step s = .next (raise (.truncatedInstruction s.pos start) (failField two s)) :=
  step_of_transition (.truncatedAtField two start hr hp (by have := one_le_fieldBytes two; omega) hpending hs)

/-- Settles O26: R119 at the mode byte, and at a pending field of either kind and size. -/
theorem unfinishedInstructionEndsRun : Obligations.UnfinishedInstructionEndsRun := by
  intro s start hr hs hshort
  obtain ⟨hp, hend⟩ | ⟨hp, hd, hend⟩ | ⟨hp, hd, hend⟩ | ⟨hp, hd, hi, hend⟩ | ⟨hp, hd, hi, hend⟩ := hshort
  · exact ⟨_, step_of_transition (.truncatedAtMode start hr hp (by omega) hs), rfl⟩
  · exact ⟨_, step_truncatedAtField false hr hs hp hend (.inl hd), rfl⟩
  · exact ⟨_, step_truncatedAtField true hr hs hp hend (.inl hd), rfl⟩
  · exact ⟨_, step_truncatedAtField false hr hs hp hend (.inr ⟨hd, hi⟩), rfl⟩
  · exact ⟨_, step_truncatedAtField true hr hs hp hend (.inr ⟨hd, hi⟩), rfl⟩

/-- Settles O27: the transition of R121. -/
theorem terminalPhasesStay : Obligations.TerminalPhasesStay := by
  intro s hr hp
  refine step_terminal hr ?_
  obtain hp | hp := hp <;> rw [hp] <;> rfl

/-! #### The instruction a step runs -/

theorem step_of_run {s : State} {i : Instr} (h : nextAction s = .ok (.run i)) : step s = exec i s := by
  rw [step, h]

theorem nextAction_complete {s : State} {i : Instr} (hr : s.rst = false) (hp : s.phase = .complete)
    (hg : s.acc.gathered = .ok i) : nextAction s = .ok (.run i) := by
  simp [nextAction, hr, hp, hg, bind, Except.bind, pure, Except.pure]

theorem nextAction_unrecognized {s : State} (hr : s.rst = false) (hp : s.phase = .awaitingOpcodeByte)
    (hlt : s.pos < s.len) (hf : classify (Memory.read s.mem s.pos) = .unrecognized) :
    nextAction s = .ok (.run (.unrecognized (Memory.read s.mem s.pos))) := by
  simp [nextAction, hr, hp, opcodeAction, readByte_lt hlt, hf]

theorem nextAction_invalid {s : State} {w : Bool} (hr : s.rst = false) (hp : s.phase = .awaitingModeByte)
    (hlt : s.pos < s.len) (hf : s.acc.opcodeFamily = some .immediateToRegisterOrMemory) (hw : s.acc.wide = some w)
    (hreg : regBits (Memory.read s.mem s.pos) ≠ 0#3) :
    nextAction s = .ok (.run (.invalid w (Memory.read s.mem s.pos))) := by
  simp [nextAction, hr, hp, modeAction, readByte_lt hlt, hf, hw, hreg, bind, Except.bind, pure, Except.pure]

theorem byteAt_eq_some {s : State} {a : Nat} {b : Byte} : s.byteAt a = some b ↔ a < s.len ∧ Memory.read s.mem a = b := by
  simp [State.byteAt]

/-- Settles O29: the three places where `nextAction` names an instruction. -/
theorem stepRunsTheDecidedInstruction : Obligations.StepRunsTheDecidedInstruction := by
  intro s hr
  refine ⟨fun i hp hg => step_of_run (nextAction_complete hr hp hg), ?_, ?_⟩
  · intro b0 hp hb hf
    obtain ⟨hlt, rfl⟩ := byteAt_eq_some.1 hb
    exact step_of_run (nextAction_unrecognized hr hp hlt hf)
  · intro b1 w hp hb hf hw hreg
    obtain ⟨hlt, rfl⟩ := byteAt_eq_some.1 hb
    exact step_of_run (nextAction_invalid hr hp hlt hf hw hreg)

/-! #### What the meanings answer -/

/-- R120: a MOV answers the completed state with the record of its operands. -/
theorem exec_eq_afterRecord {i : Instr} {dst src : Operand} (ho : operandsOf i = some (dst, src)) {s : State}
    {start : Nat} (hs : s.acc.instrStart = some start) :
    exec i s = .next (afterRecord s
      { mnemonic := .mov, destinationOperand := dst, sourceOperand := src, start := start, length := s.pos - start }) := by
  rw [exec_of_operands ho, complete_some hs]
  rfl

/-- Settles O34: each row is the completion of its operands. -/
theorem movRmRegEmitsRecord : Obligations.MovRmRegEmitsRecord :=
  fun _ _ _ _ _ _ hs => ⟨exec_eq_afterRecord rfl hs, exec_eq_afterRecord rfl hs, exec_eq_afterRecord rfl hs,
    exec_eq_afterRecord rfl hs, exec_eq_afterRecord rfl hs⟩

/-- Settles O35: each row is the completion of its operands. -/
theorem movRegRmEmitsRecord : Obligations.MovRegRmEmitsRecord :=
  fun _ _ _ _ _ _ hs => ⟨exec_eq_afterRecord rfl hs, exec_eq_afterRecord rfl hs, exec_eq_afterRecord rfl hs,
    exec_eq_afterRecord rfl hs, exec_eq_afterRecord rfl hs⟩

/-- Settles O36: each row is the completion of its operands. -/
theorem movRmImmEmitsRecord : Obligations.MovRmImmEmitsRecord :=
  fun _ _ _ _ _ _ hs => ⟨exec_eq_afterRecord rfl hs, exec_eq_afterRecord rfl hs, exec_eq_afterRecord rfl hs,
    exec_eq_afterRecord rfl hs, exec_eq_afterRecord rfl hs⟩

/-- Settles O37: row 17 is the completion of its operands. -/
theorem movRegImmEmitsRecord : Obligations.MovRegImmEmitsRecord :=
  fun _ _ _ _ _ hs => exec_eq_afterRecord rfl hs

/-- Settles O38: the entry of R196 after the mode byte. -/
theorem invalidRaisesOutcome : Obligations.InvalidRaisesOutcome :=
  fun _ _ _ start hs => execInvalid_next.2 ⟨start, hs, rfl⟩

/-- Settles O39: the entry of R196 after the first byte. -/
theorem unrecognizedRaisesOutcome : Obligations.UnrecognizedRaisesOutcome :=
  fun _ _ => execUnrecognized_next.2 rfl

/-- Settles O40: the completed state, field by field. -/
theorem movLeavesTheRest : Obligations.MovLeavesTheRest := by
  intro i s t hmov hexec
  obtain ⟨operands, ho⟩ := Option.ne_none_iff_exists'.1 hmov
  rw [exec_of_operands ho] at hexec
  obtain ⟨start, -, rfl⟩ := complete_next.1 hexec
  exact ⟨fun _ => rfl, rfl, rfl, rfl, rfl, rfl, rfl, rfl, rfl, _, rfl⟩

/-- Settles O41: the raised state of either row, field by field. -/
theorem rejectionLeavesTheRest : Obligations.RejectionLeavesTheRest := by
  intro i s t hnone hexec
  obtain ⟨operands, ho⟩ | ⟨w, b, rfl⟩ | ⟨b, rfl⟩ := instr_cases i
  · cases hnone.symm.trans ho
  · obtain ⟨start, -, rfl⟩ := execInvalid_next.1 hexec
    exact ⟨fun _ => rfl, rfl, rfl, rfl, rfl, rfl, fun _ _ _ => rfl, _, rfl, rfl, rfl⟩
  · obtain rfl := execUnrecognized_next.1 hexec
    exact ⟨fun _ => rfl, rfl, rfl, rfl, rfl, rfl, nofun, _, rfl, rfl, rfl⟩

/-! #### Texts, codes and denotations -/

/-- Settles O55: the two tables index by index, and each form of `operandText`. -/
theorem operandsAndLinesReadAsWritten : Obligations.OperandsAndLinesReadAsWritten := by
  refine ⟨fun i => (operandText_reg_widthOf true i).trans (regName_true i), fun rm => ?_, fun addr => rfl,
    fun value => ⟨fun w => rfl, rfl, rfl⟩, fun record => rfl⟩
  have hbase : baseText rm =
      (["bx + si", "bx + di", "bp + si", "bp + di", "si", "di", "bp", "bx"] : List String).getD rm.toNat "" := by
    revert rm; decide
  exact ⟨by rw [operandText, hbase], fun disp => by rw [operandText, hbase, dec]⟩

/-- Settles O58: a record gives one line, an outcome none. -/
theorem outputHasOneLinePerRecord : Obligations.OutputHasOneLinePerRecord := by
  intro records final
  have hrecords : (records.map ResultItem.instruction).flatMap itemLines = records.map lineOf := by
    rw [List.flatMap_map]
    exact List.map_eq_flatMap.symm
  have hfinal : (final.map ResultItem.outcome).flatMap itemLines = [] := by
    rw [List.flatMap_map]
    exact List.flatMap_eq_nil_iff.2 fun _ _ => rfl
  rw [outputLines, List.flatMap_append, hrecords, hfinal, List.append_nil]
  rfl

theorem baseRegister_indexRegister_pair {rm : Index} (hrm : rm.toNat < 4) :
    ∃ base index : Index, baseRegister rm = some base ∧ indexRegister rm = some index ∧
      basePair rm.toNat = (base.toNat, index.toNat) := by
  revert rm; decide

theorem baseRegister_indexRegister_single {rm : Index} (hrm : 4 ≤ rm.toNat) :
    (∃ base : Index, baseRegister rm = some base ∧ indexRegister rm = none ∧ baseSingle rm.toNat = base.toNat) ∨
    (∃ index : Index, baseRegister rm = none ∧ indexRegister rm = some index ∧ baseSingle rm.toNat = index.toNat) := by
  revert rm; decide

/-- Settles O59: the parts of R162 by index, and the sum of words modulo 65536. -/
theorem memoryOperandDenotesItsSum : Obligations.MemoryOperandDenotesItsSum := by
  refine ⟨fun regs rm disp => ⟨_, rfl, fun hrm => ?_, fun hrm => ?_⟩, fun regs addr => rfl⟩
  · obtain ⟨base, index, hbase, hindex, hpair⟩ := baseRegister_indexRegister_pair hrm
    simp [hbase, hindex, hpair, partValue]
  · obtain ⟨base, hbase, hindex, hsingle⟩ | ⟨index, hbase, hindex, hsingle⟩ := baseRegister_indexRegister_single hrm
    · simp [hbase, hindex, hsingle, partValue]
    · simp [hbase, hindex, hsingle, partValue]

theorem outcomeCode_eq_zero_iff (e : Option FinalOutcome) : outcomeCode e = 0 ↔ e = none := by
  cases e with
  | none => simp [outcomeCode]
  | some final => cases final <;> simp [outcomeCode]

theorem outcomeCode_eq_one_iff (final : FinalOutcome) : outcomeCode (some final) = 1 ↔ final.isFatal = false := by
  cases final <;> simp [outcomeCode, FinalOutcome.isFatal]

/-- One bit of a byte as a bit vector of one bit. -/
theorem ofBool_getLsbD (b : Byte) (n : Nat) : BitVec.ofBool (b.getLsbD n) = b.extractLsb' n 1 := by
  apply BitVec.eq_of_getLsbD_eq
  intro i hi
  obtain rfl : i = 0 := by omega
  simp

theorem directionCode_dirBit (b0 : Byte) : directionCode (dirBit b0) = b0.extractLsb' 1 1 := by
  rw [← ofBool_getLsbD, dirBit]
  cases b0.getLsbD 1 <;> rfl

/-- Settles O60: the tables of R36 and R190 entry by entry, and the bits of the first byte. -/
theorem codesTellValuesApart : Obligations.CodesTellValuesApart := by
  refine ⟨by decide, by decide, by decide, by decide, ⟨rfl, rfl, fun _ _ => rfl, fun _ _ => rfl, fun _ _ _ => rfl⟩, ?_,
    fun p => by cases p <;> rfl, by decide, fun am => by cases am <;> rfl, by decide, ?_, ?_, by decide,
    outcomeCode_eq_zero_iff, outcomeCode_eq_one_iff⟩
  · intro b0
    exact ⟨directionCode_dirBit b0, ofBool_getLsbD b0 0, ofBool_getLsbD b0 0, ofBool_getLsbD b0 3⟩
  · intro f g h
    cases f <;> cases g <;> simp [familyCode] at h ⊢
  · intro d e h
    cases d <;> cases e <;> simp [directionCode] at h ⊢

end Sys2Proof.Machine

namespace Sys2Proof.Machine

/-! ### Family other: the machine follows the decoder -/

/-! #### Gathering steps -/

/-- The phases inside an instruction. -/
def Phase.isGathering : Phase → Bool
  | .awaitingModeByte | .awaitingDisplacementOrImmediate | .complete => true
  | .awaitingOpcodeByte | .done | .faulted => false

/-- `n` steps that each end inside an instruction. -/
inductive Gathers : Nat → State → State → Prop where
  | refl (s : State) : Gathers 0 s s
  | head {n : Nat} {s t u : State} (hstep : step s = .next t) (hp : t.phase.isGathering = true) (rest : Gathers n t u) :
      Gathers (n + 1) s u

theorem Gathers.single {s t : State} (hstep : step s = .next t) (hp : t.phase.isGathering = true) : Gathers 1 s t :=
  .head hstep hp (.refl t)

theorem Gathers.trans {m n : Nat} {s t u : State} (h : Gathers m s t) (h' : Gathers n t u) : Gathers (m + n) s u := by
  induction h with
  | refl => rwa [Nat.zero_add]
  | head hstep hp _ ih =>
    rw [Nat.succ_add]
    exact .head hstep hp (ih h')

theorem stepMany_add {m : Nat} {s t : State} (h : stepMany m s = .next t) (n : Nat) :
    stepMany (m + n) s = stepMany n t := by
  induction m generalizing s with
  | zero =>
    cases h
    rw [Nat.zero_add]
  | succ m ih =>
    cases hstep : step s with
    | next u =>
      rw [stepMany_succ_of_step hstep] at h
      rw [Nat.succ_add, stepMany_succ_of_step hstep, ih h]
    | fault f => simp [stepMany, hstep] at h
    | refused r => simp [stepMany, hstep] at h

theorem Gathers.stepMany_eq {n : Nat} {s t : State} (h : Gathers n s t) : stepMany n s = .next t := by
  induction h with
  | refl => rfl
  | head hstep _ _ ih => rw [stepMany_succ_of_step hstep, ih]

/-- A meaning leads between two instructions or to the end of the run, never into an instruction. -/
theorem exec_not_gathering {i : Instr} {s t : State} (h : exec i s = .next t) : t.phase.isGathering = false := by
  obtain ⟨operands, ho⟩ | ⟨w, b, rfl⟩ | ⟨b, rfl⟩ := instr_cases i
  · rw [exec_of_operands ho] at h
    obtain ⟨start, -, rfl⟩ := complete_next.1 h
    rfl
  · obtain ⟨start, -, rfl⟩ := execInvalid_next.1 h
    rfl
  · obtain rfl := execUnrecognized_next.1 h
    rfl

/-- A step into an instruction runs no meaning. -/
theorem nextAction_goto {s t : State} (h : step s = .next t) (hp : t.phase.isGathering = true) :
    nextAction s = .ok (.goto t) := by
  rw [step] at h
  split at h
  next ha =>
    cases h
    exact ha
  next => simp [exec_not_gathering h] at hp
  next => cases h

/-- The fetch of the model stops where an instruction is decided. -/
theorem Gathers.gather_eq {n : Nat} {s t : State} {i : Instr} (h : Gathers n s t) (hrun : nextAction t = .ok (.run i))
    {fuel : Nat} (hfuel : n ≤ fuel) : gather fuel s = t := by
  induction h generalizing fuel with
  | refl s =>
    cases fuel with
    | zero => rfl
    | succ fuel => rw [gather, hrun]
  | head hstep hp _ ih =>
    obtain ⟨fuel, rfl⟩ : ∃ k, fuel = k + 1 := Nat.exists_eq_add_of_le' (by omega)
    rw [gather, nextAction_goto hstep hp]
    exact ih hrun (by omega)

/-- Gathering changes only position, phase, accumulator and cursor ports. -/
structure SameOutside (s t : State) : Prop where
  mem : t.mem = s.mem
  len : t.len = s.len
  err : t.err = s.err
  results : t.results = s.results
  rst : t.rst = false

theorem Gathers.sameOutside {n : Nat} {s t : State} (h : Gathers n s t) (hr : s.rst = false) : SameOutside s t := by
  induction h with
  | refl s => exact ⟨rfl, rfl, rfl, rfl, hr⟩
  | @head n s t u hstep hp _ ih =>
    have htrans := step_transition hstep
    obtain ⟨hmem, hlen⟩ := htrans.keeps_buffer
    have hrt : t.rst = false := htrans.keeps_rst.elim id (·.trans hr)
    have hsame : t.results = s.results ∧ t.err = s.err := by
      obtain ⟨-, -, ht⟩ | ⟨hres, herr, -⟩ | ⟨-, ht, -⟩ | ⟨-, final, -, -, ⟨ht, -⟩ | ⟨ht, -⟩⟩ := htrans.results_and_err
      · simp [ht, Phase.isGathering] at hp
      · exact ⟨hres, herr⟩
      · simp [ht, Phase.isGathering] at hp
      · simp [ht, Phase.isGathering] at hp
      · simp [ht, Phase.isGathering] at hp
    obtain ⟨hres, herr⟩ := hsame
    have hrest := ih hrt
    exact ⟨hrest.mem.trans hmem, hrest.len.trans hlen, hrest.err.trans herr, hrest.results.trans hres, hrest.rst⟩

theorem SameOutside.bytesFrom {s t : State} (h : SameOutside s t) (a : Nat) : t.bytesFrom a = s.bytesFrom a := by
  rw [State.bytesFrom, h.mem, h.len, State.bytesFrom]

/-! #### A field in the bytes from the position on -/

theorem takeField_bytesFrom {two : Bool} {s : State} (h : fieldBytes two ≤ s.len - s.pos) :
    takeField (fieldCount two) (s.bytesFrom s.pos) =
      some (some (fieldAtPos two s), s.bytesFrom (s.pos + fieldBytes two)) := by
  cases two with
  | false =>
    rw [fieldBytes_false] at h ⊢
    rw [bytesFrom_lt (by omega)]
    rfl
  | true =>
    rw [fieldBytes_true] at h ⊢
    rw [bytesFrom_lt (by omega), bytesFrom_lt (by omega)]
    rfl

theorem takeField_bytesFrom_end {two : Bool} {s : State} (h : ¬ fieldBytes two ≤ s.len - s.pos) :
    takeField (fieldCount two) (s.bytesFrom s.pos) = none := by
  cases two with
  | false =>
    rw [fieldBytes_false] at h
    rw [bytesFrom_end (by omega)]
    rfl
  | true =>
    rw [fieldBytes_true] at h
    by_cases hlt : s.pos < s.len
    · rw [bytesFrom_lt hlt, bytesFrom_end (by omega)]
      rfl
    · rw [bytesFrom_end (by omega)]
      rfl

/-- The steps that gather a field. -/
def fieldSteps (n : ByteCount) : Nat := if n = .zero then 0 else 1

theorem fieldSteps_fieldCount (two : Bool) : fieldSteps (fieldCount two) = 1 := if_neg (fieldCount_ne_zero two)

theorem isGathering_gatheringPhase (disp imm : ByteCount) : (gatheringPhase disp imm).isGathering = true := by
  obtain h | h := gatheringPhase_cases disp imm <;> rw [h] <;> rfl

/-- The machine gathers the displacement that the decoder takes, if there is one (R117). -/
theorem gathers_displacement {u : State} {n m : ByteCount} {d : Option Word} {rest : List Byte} (hr : u.rst = false)
    (hp : u.phase = gatheringPhase n m) (hpending : u.acc.pendingBytes = ⟨false, n, m⟩) (hnone : u.acc.displacement = none)
    (h : takeField n (u.bytesFrom u.pos) = some (d, rest)) :
    rest = u.bytesFrom (u.pos + n.toNat) ∧
      ∃ t, Gathers (fieldSteps n) u t ∧ t.pos = u.pos + n.toNat ∧ t.phase = gatheringPhase .zero m ∧
        t.acc = { u.acc with displacement := d, pendingBytes := ⟨false, .zero, m⟩ } := by
  by_cases hn : n = .zero
  · subst hn
    rw [takeField_zero] at h
    cases h
    exact ⟨rfl, u, .refl u, rfl, hp, by rw [← hpending, ← hnone]⟩
  · obtain ⟨two, rfl⟩ := exists_fieldCount hn
    have hdisp : u.acc.pendingBytes.disp = fieldCount two := by rw [hpending]
    have hfield : u.phase = .awaitingDisplacementOrImmediate := by rw [hp, gatheringPhase, if_neg fun hz => hn hz.1]
    by_cases hlt : fieldBytes two ≤ u.len - u.pos
    · rw [takeField_bytesFrom hlt] at h
      cases h
      rw [toNat_fieldCount, fieldSteps_fieldCount]
      have hstep := step_of_transition (.displacement two hr hfield hdisp hlt)
      refine ⟨rfl, _, .single hstep (isGathering_gatheringPhase _ _), by simp, by simp [hpending], ?_⟩
      rw [storeDisplacement_acc, consumeField_acc, withDisplacement, hpending]
    · rw [takeField_bytesFrom_end hlt] at h
      cases h

/-- The machine gathers the immediate that the decoder takes (R118). -/
theorem gathers_immediate {u : State} {two : Bool} {v : Option Word} {rest : List Byte} (hr : u.rst = false)
    (hp : u.phase = gatheringPhase .zero (fieldCount two)) (hpending : u.acc.pendingBytes = ⟨false, .zero, fieldCount two⟩)
    (h : takeField (fieldCount two) (u.bytesFrom u.pos) = some (v, rest)) :
    ∃ imm, v = some imm ∧ rest = u.bytesFrom (u.pos + fieldBytes two) ∧
      ∃ t, Gathers 1 u t ∧ t.pos = u.pos + fieldBytes two ∧ t.phase = .complete ∧
        t.acc = { u.acc with immediate := some imm, pendingBytes := PendingBytes.nothing } := by
  have hdisp : u.acc.pendingBytes.disp = .zero := by rw [hpending]
  have himm : u.acc.pendingBytes.imm = fieldCount two := by rw [hpending]
  have hfield : u.phase = .awaitingDisplacementOrImmediate := by
    rw [hp, gatheringPhase, if_neg fun hz => fieldCount_ne_zero two hz.2]
  by_cases hlt : fieldBytes two ≤ u.len - u.pos
  · rw [takeField_bytesFrom hlt] at h
    cases h
    have hstep := step_of_transition (.immediate two hr hfield hdisp himm hlt)
    refine ⟨_, rfl, rfl, _, .single hstep rfl, by simp, rfl, ?_⟩
    rw [storeImmediate_acc, consumeField_acc, withImmediate, hpending]
    rfl
  · rw [takeField_bytesFrom_end hlt] at h
    cases h

/-! #### What the machine does with the bytes of an instruction -/

/-- The machine has gathered an instruction that starts at `s`'s position and runs it next. -/
structure Decided (s : State) (i : Instr) (t : State) : Prop where
  gathers : Gathers (transitionCount i - 1) s t
  runs : nextAction t = .ok (.run i)
  start : (∀ b, i ≠ .unrecognized b) → t.acc.instrStart = some s.pos
  pos_of_mov : operandsOf i ≠ none → t.pos = s.pos + i.length
  pos_of_rejected : operandsOf i = none → t.pos + 1 = s.pos + i.length

/-- The machine ends the run in the truncation of an instruction that starts at `s`'s position, after `consumed` of its bytes. -/
def Truncates (s : State) (consumed : Nat) : Prop :=
  ∃ n t u, n ≤ consumed ∧ Gathers n s t ∧ step t = .next u ∧ u.phase = .faulted ∧
    u.results = t.results ++ [.outcome (.truncatedInstruction (s.pos + consumed) s.pos)]

/-- What the machine does from between two instructions, by what the bytes at the position decode to. -/
inductive Follows (s : State) : Except DecodeError (Instr × List Byte) → Prop where
  | decided {i : Instr} {rest : List Byte} (t : State) (hrest : rest = s.bytesFrom (s.pos + i.length)) (h : Decided s i t) :
      Follows s (.ok (i, rest))
  | endOfBytes (h : s.len ≤ s.pos) : Follows s (.error .endOfBytes)
  | truncated (consumed : Nat) (h : Truncates s consumed) : Follows s (.error (.truncated consumed))

theorem Truncates.of_gathers {s t : State} {n consumed : Nat} (hg : Gathers n s t) (hr : s.rst = false)
    (hn : n ≤ consumed) (hpos : t.pos = s.pos + consumed) (hs : t.acc.instrStart = some s.pos)
    (hshort : (t.phase = .awaitingModeByte ∧ ¬ t.pos < t.len) ∨
      ∃ two, t.phase = .awaitingDisplacementOrImmediate ∧ takeField (fieldCount two) (t.bytesFrom t.pos) = none ∧
        (t.acc.pendingBytes.disp = fieldCount two ∨
          (t.acc.pendingBytes.disp = .zero ∧ t.acc.pendingBytes.imm = fieldCount two))) : Truncates s consumed := by
  have hrt := (hg.sameOutside hr).rst
  obtain ⟨hp, hend⟩ | ⟨two, hp, hnone, hpending⟩ := hshort
  · exact ⟨n, t, _, hn, hg, step_of_transition (.truncatedAtMode _ hrt hp hend hs), rfl, by simp [hpos]⟩
  · have hend : ¬ fieldBytes two ≤ t.len - t.pos := by
      intro hlt
      simp [takeField_bytesFrom hlt] at hnone
    exact ⟨n, t, _, hn, hg, step_of_transition (.truncatedAtField two _ hrt hp hend hpending hs), rfl, by simp [hpos]⟩

/-- A displacement that the decoder does not find whole. -/
theorem Truncates.at_displacement {s t : State} {k consumed : Nat} {n m : ByteCount} (hg : Gathers k s t)
    (hr : s.rst = false) (hk : k ≤ consumed) (hpos : t.pos = s.pos + consumed) (hs : t.acc.instrStart = some s.pos)
    (hp : t.phase = gatheringPhase n m) (hpending : t.acc.pendingBytes = ⟨false, n, m⟩)
    (hnone : takeField n (t.bytesFrom t.pos) = none) : Truncates s consumed := by
  have hn : n ≠ .zero := by
    rintro rfl
    simp at hnone
  obtain ⟨two, rfl⟩ := exists_fieldCount hn
  refine .of_gathers hg hr hk hpos hs (.inr ⟨two, ?_, hnone, .inl (by rw [hpending])⟩)
  rw [hp, gatheringPhase, if_neg fun hz => hn hz.1]

/-- An immediate that the decoder does not find whole. -/
theorem Truncates.at_immediate {s t : State} {k consumed : Nat} {two : Bool} (hg : Gathers k s t)
    (hr : s.rst = false) (hk : k ≤ consumed) (hpos : t.pos = s.pos + consumed) (hs : t.acc.instrStart = some s.pos)
    (hp : t.phase = gatheringPhase .zero (fieldCount two)) (hpending : t.acc.pendingBytes = ⟨false, .zero, fieldCount two⟩)
    (hnone : takeField (fieldCount two) (t.bytesFrom t.pos) = none) : Truncates s consumed := by
  refine .of_gathers hg hr hk hpos hs (.inr ⟨two, ?_, hnone, .inr ⟨by rw [hpending], by rw [hpending]⟩⟩)
  rw [hp, gatheringPhase, if_neg fun hz => fieldCount_ne_zero two hz.2]

/-! #### The two bytes that establish fields -/

/-- The state after an opcode byte of a family (R112). -/
def opcodeRead (f : Family) (b0 : Byte) (s : State) : State := opcodeByte f b0 s.pos (consumeByte b0 s)

/-- The state after opcode byte and mode byte (R112, R114). -/
def modeRead (f : Family) (b0 b1 : Byte) (s : State) : State :=
  modeByte f (widthBit f b0) b1 (consumeByte b1 (opcodeRead f b0 s))

theorem gathers_opcodeRead {s : State} {b0 : Byte} {f : Family} (hs : BetweenInstructions s) (hlt : s.pos < s.len)
    (hb0 : Memory.read s.mem s.pos = b0) (hf : classify b0 = f) (hknown : f ≠ .unrecognized) :
    Gathers 1 s (opcodeRead f b0 s) := by
  obtain ⟨hr, hp, -⟩ := hs
  subst hf
  refine .single (step_of_transition (.opcodeByte b0 hr hp hlt hb0.symm hknown)) ?_
  obtain ht | ht := opcodeByte_phase_cases hknown b0 s.pos (consumeByte b0 s) <;> rw [opcodeRead, ht] <;> rfl

/-- In the two families with a mode byte, which must not be invalid (R114, R115). -/
theorem gathers_modeRead {s : State} {b0 b1 : Byte} {f : Family} (hs : BetweenInstructions s) (hlt : s.pos + 1 < s.len)
    (hb0 : Memory.read s.mem s.pos = b0) (hb1 : Memory.read s.mem (s.pos + 1) = b1) (hf : classify b0 = f)
    (hmode : f = .registerOrMemoryToRegister ∨ (f = .immediateToRegisterOrMemory ∧ regBits b1 = 0#3)) :
    Gathers 2 s (modeRead f b0 b1 s) := by
  obtain rfl | ⟨rfl, hreg⟩ := hmode
  · refine (gathers_opcodeRead hs (by omega) hb0 hf (by decide)).trans (.single ?_ (isGathering_gatheringPhase _ _))
    exact step_of_transition (.modeByte (s := opcodeRead _ b0 s) b1 _ _ hs.1 rfl hlt hb1.symm rfl rfl (by decide) (by simp))
  · refine (gathers_opcodeRead hs (by omega) hb0 hf (by decide)).trans (.single ?_ (isGathering_gatheringPhase _ _))
    exact step_of_transition (.modeByte (s := opcodeRead _ b0 s) b1 _ _ hs.1 rfl hlt hb1.symm rfl rfl (by decide)
      fun h => h.2 hreg)

theorem modeRead_displacement {s : State} (hacc : s.acc = DecodeState.neutral) (f : Family) (b0 b1 : Byte) :
    (modeRead f b0 b1 s).acc.displacement = none := by
  cases f <;> exact congrArg DecodeState.displacement hacc

/-! #### The r/m operand -/

/-- The steps that gather an r/m operand: the mode byte and, where its mode has one, the displacement. -/
def rmSteps : RmForm → Nat
  | .directAddress _ => 2
  | .memoryNoDisplacement _ => 1
  | .memoryByteDisplacement _ _ => 2
  | .memoryWordDisplacement _ _ => 2
  | .registerDirect _ => 1

theorem rmSteps_rmFormOf (am : AddressingMode) (rm : Index) (disp : Word) :
    rmSteps (rmFormOf am rm disp) = 1 + fieldSteps (displacementCount am) := by
  cases am <;> rfl

theorem length_rmFormOf (am : AddressingMode) (rm : Index) (disp : Word) :
    (rmFormOf am rm disp).length = 1 + (displacementCount am).toNat := by
  cases am <;> rfl

theorem transitionCount_movRegister (d : Direction) (w : Bool) (reg : Index) (rm : RmForm) :
    transitionCount (rm.movRegister d w reg) = 1 + rmSteps rm + 1 := by
  cases d <;> cases rm <;> rfl

theorem length_movRegister (d : Direction) (w : Bool) (reg : Index) (rm : RmForm) :
    (rm.movRegister d w reg).length = 1 + rm.length := by
  cases d <;> cases rm <;> rfl

theorem transitionCount_movRmImm (w : Bool) (imm : Word) (rm : RmForm) :
    transitionCount (rm.movRmImm w imm) = 1 + rmSteps rm + 1 + 1 := by
  cases rm <;> rfl

theorem length_movRmImm (w : Bool) (imm : Word) (rm : RmForm) :
    (rm.movRmImm w imm).length = 1 + rm.length + immLength w := by
  cases rm <;> rfl

/-- A field that has bytes was taken with a value. -/
theorem exists_of_takeField {n : ByteCount} {bytes rest : List Byte} {d : Option Word}
    (h : takeField n bytes = some (d, rest)) (hn : n ≠ .zero) : ∃ v, d = some v := by
  obtain ⟨two, rfl⟩ := exists_fieldCount hn
  cases two with
  | false =>
    obtain ⟨b, hd, -⟩ := takeField_one_eq_some h
    exact ⟨_, hd⟩
  | true =>
    obtain ⟨v, hd, -⟩ := takeField_two_eq_some h
    exact ⟨v, hd⟩

/-- The machine gathers the r/m operand that the decoder takes. -/
theorem gathers_rm {s : State} {b0 b1 : Byte} {f : Family} {rest : List Byte} {rm : RmForm} (hacc : s.acc = DecodeState.neutral)
    (hr : s.rst = false) (hgathers : Gathers 2 s (modeRead f b0 b1 s)) (hpos : (modeRead f b0 b1 s).pos = s.pos + 2)
    (h : takeRm b1 (s.bytesFrom (s.pos + 2)) = some (rm, rest)) :
    rest = s.bytesFrom (s.pos + (1 + rm.length)) ∧
      ∃ t disp, Gathers (1 + rmSteps rm) s t ∧ t.pos = s.pos + (1 + rm.length) ∧
        t.phase = gatheringPhase .zero (nImm f (widthBit f b0)) ∧ t.acc.rmForm = .ok rm ∧
        t.acc = { (modeRead f b0 b1 s).acc with
          displacement := disp, pendingBytes := ⟨false, .zero, nImm f (widthBit f b0)⟩ } := by
  have hcount := (modeOf_fits (modeBits b1) (rmBits b1)).1
  have hsame := hgathers.sameOutside hr
  obtain ⟨disp, hfield, rfl⟩ := takeRm_eq_some_iff.1 h
  rw [← hpos, ← hsame.bytesFrom] at hfield
  obtain ⟨hrest, t, hdisp, htpos, hphase, hacct⟩ :=
    gathers_displacement hsame.rst rfl rfl (modeRead_displacement hacc f b0 b1) hfield
  rw [hsame.bytesFrom] at hrest
  have hlength : s.pos + (1 + (rmFormOf (modeOf (modeBits b1) (rmBits b1)).1 (rmBits b1) (disp.getD 0#16)).length) =
      (modeRead f b0 b1 s).pos + (modeOf (modeBits b1) (rmBits b1)).2.toNat := by
    rw [length_rmFormOf, hcount, hpos]
    omega
  rw [hlength, rmSteps_rmFormOf, ← hcount, ← Nat.add_assoc]
  refine ⟨hrest, t, disp, hgathers.trans hdisp, htpos, hphase, ?_, hacct⟩
  rw [hacct]
  exact rmForm_eq_rmFormOf rfl rfl fun hne => exists_of_takeField hfield (hcount ▸ hne)

/-! #### The three formats -/

/-- A completed MOV that starts at `s`'s position. -/
theorem Decided.of_complete {s t : State} {i : Instr} {n : Nat} (hr : s.rst = false) (hg : Gathers n s t)
    (hn : transitionCount i = n + 1) (hp : t.phase = .complete) (hi : t.acc.gathered = .ok i)
    (hs : t.acc.instrStart = some s.pos) (hpos : t.pos = s.pos + i.length) : Decided s i t where
  gathers := by rwa [hn, Nat.add_sub_cancel]
  runs := nextAction_complete (hg.sameOutside hr).rst hp hi
  start _ := hs
  pos_of_mov _ := hpos
  pos_of_rejected hnone := by
    obtain ⟨operands, ho⟩ := gathered_operands hi
    cases hnone.symm.trans ho

/-- Format `RM_REG` (R67). -/
theorem follows_decodeRmReg {s : State} {b0 : Byte} (hs : BetweenInstructions s) (hlt : s.pos < s.len)
    (hb0 : Memory.read s.mem s.pos = b0) (hf : classify b0 = .registerOrMemoryToRegister) :
    Follows s (decodeRmReg b0 (s.bytesFrom (s.pos + 1))) := by
  have ⟨hr, _, hacc⟩ := hs
  by_cases hmode : s.pos + 1 < s.len
  · rw [bytesFrom_lt hmode]
    generalize hb1 : Memory.read s.mem (s.pos + 1) = b1
    have hgathers := gathers_modeRead hs hmode hb0 hb1 hf (.inl rfl)
    cases hrm : takeRm b1 (s.bytesFrom (s.pos + 2)) with
    | none =>
      simp only [decodeRmReg, hrm]
      exact .truncated 2 (.at_displacement hgathers hr le_rfl rfl rfl rfl rfl (takeRm_eq_none_iff.1 hrm))
    | some taken =>
      obtain ⟨rm, rest⟩ := taken
      simp only [decodeRmReg, hrm]
      obtain ⟨hrest, t, disp, hall, hpos, hphase, hform, hacct⟩ := gathers_rm hacc hr hgathers rfl hrm
      have hi := gathered_registerMove (by rw [hacct]; rfl) (by rw [hacct]; rfl) (by rw [hacct]; rfl) (by rw [hacct]; rfl) hform
      rw [← length_movRegister] at hrest hpos
      exact .decided t hrest (.of_complete hr hall (transitionCount_movRegister _ _ _ rm) hphase hi (by rw [hacct]; rfl) hpos)
  · rw [bytesFrom_end (by omega)]
    exact .truncated 1 (.of_gathers (gathers_opcodeRead hs hlt hb0 hf (by decide)) hr le_rfl rfl rfl (.inl ⟨rfl, hmode⟩))

theorem length_of_takeRm {b1 : Byte} {bytes rest : List Byte} {rm : RmForm} (h : takeRm b1 bytes = some (rm, rest)) :
    rm.length = 1 + (modeOf (modeBits b1) (rmBits b1)).2.toNat := by
  obtain ⟨disp, -, rfl⟩ := takeRm_eq_some_iff.1 h
  rw [length_rmFormOf, (modeOf_fits (modeBits b1) (rmBits b1)).1]

theorem rmSteps_le_length (rm : RmForm) : rmSteps rm ≤ rm.length := by
  cases rm <;> simp [rmSteps, RmForm.length]

theorem gatheringPhase_fieldCount (two : Bool) :
    gatheringPhase .zero (fieldCount two) = .awaitingDisplacementOrImmediate :=
  if_neg fun h => fieldCount_ne_zero two h.2

/-- An invalid mode byte is run at once (R115). -/
theorem decided_invalid {s : State} {b0 b1 : Byte} (hs : BetweenInstructions s) (hlt : s.pos + 1 < s.len)
    (hb0 : Memory.read s.mem s.pos = b0) (hb1 : Memory.read s.mem (s.pos + 1) = b1)
    (hf : classify b0 = .immediateToRegisterOrMemory) (hreg : regBits b1 ≠ 0#3) :
    Decided s (.invalid (widthBit .immediateToRegisterOrMemory b0) b1)
      (opcodeRead .immediateToRegisterOrMemory b0 s) where
  gathers := gathers_opcodeRead hs (by omega) hb0 hf (by decide)
  runs := by
    subst hb1
    exact nextAction_invalid (s := opcodeRead _ b0 s) hs.1 rfl hlt rfl rfl hreg
  start _ := rfl
  pos_of_mov h := absurd rfl h
  pos_of_rejected _ := rfl

/-- Format `IMM_RM` (R68). -/
theorem follows_decodeImmRm {s : State} {b0 : Byte} (hs : BetweenInstructions s) (hlt : s.pos < s.len)
    (hb0 : Memory.read s.mem s.pos = b0) (hf : classify b0 = .immediateToRegisterOrMemory) :
    Follows s (decodeImmRm b0 (s.bytesFrom (s.pos + 1))) := by
  have ⟨hr, _, hacc⟩ := hs
  by_cases hmode : s.pos + 1 < s.len
  · rw [bytesFrom_lt hmode]
    generalize hb1 : Memory.read s.mem (s.pos + 1) = b1
    by_cases hreg : regBits b1 = 0#3
    · have hgathers := gathers_modeRead hs hmode hb0 hb1 hf (.inr ⟨rfl, hreg⟩)
      simp only [decodeImmRm, hreg, ne_eq, not_true, if_false]
      cases hrm : takeRm b1 (s.bytesFrom (s.pos + 2)) with
      | none => exact .truncated 2 (.at_displacement hgathers hr le_rfl rfl rfl rfl rfl (takeRm_eq_none_iff.1 hrm))
      | some taken =>
        obtain ⟨rm, afterDisp⟩ := taken
        obtain ⟨hrest, t, disp, hall, hpos, hphase, hform, hacct⟩ := gathers_rm hacc hr hgathers rfl hrm
        have hbytes : afterDisp = t.bytesFrom t.pos := by rw [hrest, hpos, (hall.sameOutside hr).bytesFrom]
        have hpending : t.acc.pendingBytes = ⟨false, .zero, fieldCount (widthBit .immediateToRegisterOrMemory b0)⟩ := by
          rw [hacct]
          rfl
        cases himm : takeField (nImm .immediateToRegisterOrMemory (widthBit .immediateToRegisterOrMemory b0)) afterDisp with
        | none =>
          simp only [himm]
          have hlength := length_of_takeRm hrm
          have hsteps := rmSteps_le_length rm
          exact .truncated _ (.at_immediate hall hr (by omega) (by omega) (by rw [hacct]; rfl) hphase hpending (hbytes ▸ himm))
        | some taken =>
          obtain ⟨v, rest⟩ := taken
          obtain ⟨imm, rfl, hrest', t', himm', hpos', hphase', hacct'⟩ :=
            gathers_immediate (hall.sameOutside hr).rst hphase hpending (hbytes ▸ himm)
          simp only [himm, Option.getD_some]
          have hall' := hall.trans himm'
          have hform' : t'.acc.rmForm = .ok rm := by rw [hacct', ← hform]; rfl
          have hi := gathered_immediateToRm (by rw [hacct', hacct]; rfl) (by rw [hacct', hacct]; rfl) hform' (by rw [hacct'])
          rw [(hall.sameOutside hr).bytesFrom, hpos, Nat.add_assoc] at hrest'
          rw [hpos, Nat.add_assoc] at hpos'
          exact .decided t' (by rw [hrest', length_movRmImm]; rfl)
            (.of_complete hr hall' (transitionCount_movRmImm _ _ rm) hphase' hi (by rw [hacct', hacct]; rfl)
              (by rw [hpos', length_movRmImm]; rfl))
    · simp only [decodeImmRm, ne_eq, hreg, not_false_eq_true, if_true]
      exact .decided _ rfl (decided_invalid hs hmode hb0 hb1 hf hreg)
  · rw [bytesFrom_end (by omega)]
    exact .truncated 1 (.of_gathers (gathers_opcodeRead hs hlt hb0 hf (by decide)) hr le_rfl rfl rfl (.inl ⟨rfl, hmode⟩))

/-- Format `IMM_REG` (R69). -/
theorem follows_decodeImmReg {s : State} {b0 : Byte} (hs : BetweenInstructions s) (hlt : s.pos < s.len)
    (hb0 : Memory.read s.mem s.pos = b0) (hf : classify b0 = .immediateToRegister) :
    Follows s (decodeImmReg b0 (s.bytesFrom (s.pos + 1))) := by
  have hr := hs.1
  have hgathers := gathers_opcodeRead hs hlt hb0 hf (by decide)
  have hphase := (gatheringPhase_fieldCount (widthBit .immediateToRegister b0)).symm
  cases himm : takeField (nImm .immediateToRegister (widthBit .immediateToRegister b0)) (s.bytesFrom (s.pos + 1)) with
  | none =>
    simp only [decodeImmReg, himm]
    exact .truncated 1 (.at_immediate hgathers hr le_rfl rfl rfl hphase rfl himm)
  | some taken =>
    obtain ⟨v, rest⟩ := taken
    simp only [decodeImmReg, himm]
    obtain ⟨imm, rfl, hrest, t, himm', hpos, hphase', hacct⟩ :=
      gathers_immediate (u := opcodeRead .immediateToRegister b0 s) hr hphase rfl himm
    have hi := gathered_immediateToReg (a := t.acc) (by rw [hacct]; rfl) (by rw [hacct]; rfl) (by rw [hacct]; rfl) (by rw [hacct])
    exact .decided t (hrest.trans (congrArg s.bytesFrom (Nat.add_assoc ..)))
      (.of_complete hr (hgathers.trans himm') rfl hphase' hi (by rw [hacct]; rfl) (hpos.trans (Nat.add_assoc ..)))

/-- An unrecognised first byte is run at once (R113). -/
theorem decided_unrecognized {s : State} {b0 : Byte} (hs : BetweenInstructions s) (hlt : s.pos < s.len)
    (hb0 : Memory.read s.mem s.pos = b0) (hf : classify b0 = .unrecognized) : Decided s (.unrecognized b0) s where
  gathers := .refl s
  runs := by
    subst hb0
    exact nextAction_unrecognized hs.1 hs.2.1 hlt hf
  start h := absurd rfl (h b0)
  pos_of_mov h := absurd rfl h
  pos_of_rejected _ := rfl

/-- From between two instructions the machine does what the bytes at the position decode to (R110, R208). -/
theorem follows_decode {s : State} (hs : BetweenInstructions s) : Follows s (decode (s.bytesFrom s.pos)) := by
  by_cases hlt : s.pos < s.len
  · rw [bytesFrom_lt hlt, decode]
    generalize hb0 : Memory.read s.mem s.pos = b0
    split
    next hf => exact follows_decodeRmReg hs hlt hb0 hf
    next hf => exact follows_decodeImmRm hs hlt hb0 hf
    next hf => exact follows_decodeImmReg hs hlt hb0 hf
    next hf => exact .decided s rfl (decided_unrecognized hs hlt hb0 hf)
  · rw [bytesFrom_end (not_lt.1 hlt)]
    exact .endOfBytes (not_lt.1 hlt)

end Sys2Proof.Machine

namespace Sys2Proof.Machine

/-! ### Family other: whole instructions and whole runs -/

/-! #### The instruction at the position -/

theorem exists_decided {s : State} {i : Instr} {rest : List Byte} (hs : BetweenInstructions s)
    (h : decode (s.bytesFrom s.pos) = .ok (i, rest)) :
    ∃ t, Decided s i t ∧ SameOutside s t ∧ rest = s.bytesFrom (s.pos + i.length) := by
  have hfollows := follows_decode hs
  rw [h] at hfollows
  cases hfollows with
  | decided t hrest hd => exact ⟨t, hd, hd.gathers.sameOutside hs.1, hrest⟩

/-- Settles O30: the machine gathers what the decoder reads. -/
theorem bytesAtPositionAreRun : Obligations.BytesAtPositionAreRun := by
  intro s i rest hs h
  obtain ⟨t, hd, hsame, -⟩ := exists_decided hs h
  refine ⟨t, hd.gathers.stepMany_eq, step_of_run hd.runs, hsame.mem, hsame.len, hsame.err, hsame.results, hsame.rst,
    fun hmov => ⟨hd.start ?_, hd.pos_of_mov hmov⟩, hd.pos_of_rejected⟩
  rintro b rfl
  exact hmov rfl

theorem transitionCount_pos (i : Instr) : 1 ≤ transitionCount i := by
  cases i <;> simp [transitionCount]

/-- The gathering of an instruction and its meaning make up its transitions. -/
theorem Decided.stepMany_eq {s t : State} {i : Instr} (h : Decided s i t) : stepMany (transitionCount i) s = exec i t := by
  have hcount : transitionCount i = transitionCount i - 1 + 1 := by
    have := transitionCount_pos i
    omega
  rw [hcount, stepMany_add h.gathers.stepMany_eq, ← step_of_run h.runs, stepMany]
  cases step t <;> rfl

/-- Settles O31: the gathering, then the completion. -/
theorem wholeMovEmitsItsRecord : Obligations.WholeMovEmitsItsRecord := by
  intro s i rest dst src hs h ho
  obtain ⟨t, hd, hsame, -⟩ := exists_decided hs h
  obtain ⟨hr, hp, hacc⟩ := hs
  have hmov : operandsOf i ≠ none := by simp [ho]
  have hstart : t.acc.instrStart = some s.pos := by
    refine hd.start ?_
    rintro b rfl
    exact hmov rfl
  rw [hd.stepMany_eq, exec_eq_afterRecord ho hstart, afterRecord, hd.pos_of_mov hmov, hsame.mem, hsame.len, hsame.err,
    hsame.results, hsame.rst, hr, hp, hacc, Nat.add_sub_cancel_left]

theorem Decided.stepMany_unrecognized {s t : State} {b : Byte} (h : Decided s (.unrecognized b) t) :
    stepMany 1 s = .next (raise (.unrecognizedOpcode b s.pos)
      { consumeByte b t with acc := { t.acc with opcodeFamily := some .unrecognized } }) := by
  have hpos : t.pos = s.pos := Nat.add_right_cancel (h.pos_of_rejected rfl)
  rw [show (1 : Nat) = transitionCount (.unrecognized b) from rfl, h.stepMany_eq, execUnrecognized_next, hpos]

theorem Decided.stepMany_invalid {s t : State} {w : Bool} {b : Byte} (h : Decided s (.invalid w b) t) :
    t.pos = s.pos + 1 ∧
    stepMany 2 s = .next (raise (.invalidFieldCombination b (s.pos + 1) s.pos) (consumeByte b t)) := by
  have hpos : t.pos = s.pos + 1 := Nat.add_right_cancel (h.pos_of_rejected rfl)
  refine ⟨hpos, ?_⟩
  rw [show (2 : Nat) = transitionCount (.invalid w b) from rfl, h.stepMany_eq, execInvalid_next]
  exact ⟨s.pos, h.start nofun, by rw [hpos]⟩

/-- Settles O32: the gathering, if there is any, then the raise. -/
theorem wholeRejectionEndsRun : Obligations.WholeRejectionEndsRun := by
  intro s i rest hs h
  obtain ⟨t, hd, hsame, -⟩ := exists_decided hs h
  constructor
  · rintro b rfl
    refine ⟨_, hd.stepMany_unrecognized, rfl, ?_, rfl, ?_⟩
    · exact hd.pos_of_rejected rfl
    · rw [raise_results, ← hsame.results]
      rfl
  · rintro w b rfl
    obtain ⟨hpos, hrun⟩ := hd.stepMany_invalid
    refine ⟨_, hrun, rfl, ?_, rfl, ?_⟩
    · rw [raise_pos, consumeByte_pos, hpos]
    · rw [raise_results, consumeByte_results, hsame.results]

/-! #### An instruction placed for the host -/

/-- Bytes after the instruction do not matter to the decoder: its encoding is read whatever follows. -/
theorem decode_append {bytes rest : List Byte} {i : Instr} (h : decode bytes = .ok (i, rest)) (more : List Byte) :
    decode (bytes ++ more) = .ok (i, rest ++ more) := by
  obtain ⟨hwf, hbytes⟩ := encodeAfterDecode bytes i rest h
  rw [← hbytes, List.append_assoc]
  exact decodeAfterEncode i (rest ++ more) hwf

theorem Memory.readBytes_add (m : List Host.Cell) (a n k : Nat) :
    Memory.readBytes m a (n + k) = Memory.readBytes m a n ++ Memory.readBytes m (a + n) k := by
  induction n generalizing a with
  | zero => rw [Nat.zero_add]; rfl
  | succ n ih =>
    rw [Nat.succ_add, Memory.readBytes, Memory.readBytes, ih (a + 1), List.cons_append, Nat.add_assoc, Nat.add_comm 1 n]

/-- The placed bytes stand at the position, in front of what the buffer holds after them. -/
theorem bytesFrom_placeInstruction {s : State} (hm : Memory.wf s.mem = true) (bytes : List Byte) :
    ∃ more, (placeInstruction bytes s).bytesFrom (placeInstruction bytes s).pos = bytes ++ more := by
  have hlength : max s.len (s.pos + bytes.length) - s.pos = bytes.length + (s.len - (s.pos + bytes.length)) := by omega
  have hsplit := Memory.readBytes_add (Memory.writeBytes s.mem s.pos bytes) s.pos bytes.length
    (s.len - (s.pos + bytes.length))
  rw [← hlength, Memory.readBytes_writeBytes hm] at hsplit
  exact ⟨_, hsplit⟩

theorem transitionCount_le_five (i : Instr) : transitionCount i ≤ 5 := by
  cases i <;> simp [transitionCount]

/-- Settles O33: the word's bytes decode at the position, and the fetch stops where their instruction is decided. -/
theorem placedWordIsRunNext : Obligations.PlacedWordIsRunNext := by
  intro s nbits w i hm hword
  obtain ⟨rest, hdecode⟩ : ∃ rest, decode (tableBytes nbits w) = .ok (i, rest) := by
    unfold decodeTableWord at hword
    split at hword
    next j rest h =>
      cases hword
      exact ⟨rest, h⟩
    next => cases hword
  obtain ⟨more, hmore⟩ := bytesFrom_placeInstruction hm (tableBytes nbits w)
  obtain ⟨t, hd, -, -⟩ := exists_decided (s := placeInstruction (tableBytes nbits w) s) ⟨rfl, rfl, rfl⟩
    (hmore ▸ decode_append hdecode more)
  have hfetch : s.withFetchWord nbits w = t := by
    refine hd.gathers.gather_eq hd.runs ?_
    have := transitionCount_le_five i
    omega
  rw [hfetch]
  exact step_of_run hd.runs

/-! #### The items of a run -/

theorem length_encode (i : Instr) : (encode i).length = i.length := by
  cases i.shape with
  | movRegister d w reg rm => simp [encodeRmReg, length_movRegister, Nat.add_comm]
  | movRmImm w rm imm =>
    simp only [encode_movRmImm, encodeImmRm, List.length_cons, List.length_append, length_encodeRm, length_encodeImm,
      length_movRmImm]
    omega
  | movRegImm w reg imm => simp [encode, Instr.length, Nat.add_comm]
  | invalid | unrecognized => rfl

theorem length_bytesFrom (s : State) (a : Nat) : (s.bytesFrom a).length = s.len - a :=
  Memory.length_readBytes _ _ _

/-- An instruction that decodes lies in the buffer. -/
theorem length_le_of_decode {s : State} {i : Instr} {rest : List Byte} (h : decode (s.bytesFrom s.pos) = .ok (i, rest)) :
    i.length ≤ s.len - s.pos := by
  have hbytes := congrArg List.length (encodeAfterDecode _ _ _ h).2
  rw [List.length_append, length_encode, length_bytesFrom] at hbytes
  omega

/-- R124, R126: an instruction takes at most three transitions for two bytes. -/
theorem transitionCount_le (i : Instr) : transitionCount i ≤ i.length + i.length / 2 := by
  cases i.shape with
  | movRegister d w reg rm =>
    rw [transitionCount_movRegister, length_movRegister]
    cases rm <;> simp [rmSteps, RmForm.length]
  | movRmImm w rm imm =>
    rw [transitionCount_movRmImm, length_movRmImm]
    cases w <;> cases rm <;> simp [rmSteps, RmForm.length, immLength]
  | movRegImm w reg imm => cases w <;> simp [transitionCount, Instr.length, immLength]
  | invalid | unrecognized => simp [transitionCount, Instr.length]

theorem length_pos (i : Instr) : 1 ≤ i.length := by
  cases i <;> simp [Instr.length] <;> omega

theorem itemsOf_of_outcome {k start : Nat} {bytes : List Byte} {final : FinalOutcome} (h : outcomeOf start bytes = some final) :
    itemsOf (k + 1) start bytes = [.outcome final] := by
  rw [itemsOf, h]

theorem itemsOf_of_mov {k start : Nat} {bytes rest : List Byte} {i : Instr} {dst src : Operand}
    (h : decode bytes = .ok (i, rest)) (ho : operandsOf i = some (dst, src)) :
    itemsOf (k + 1) start bytes =
      .instruction { mnemonic := .mov, destinationOperand := dst, sourceOperand := src, start := start, length := i.length } ::
        itemsOf k (start + i.length) rest := by
  have hnone : outcomeOf start bytes = none := by
    rw [outcomeOf, h]
    cases i with
    | invalid | unrecognized => cases ho
    | _ => rfl
  rw [itemsOf, hnone, h]
  simp [recordOf, ho]

/-- The run from `s` ends within the bound of R124, its items added to those emitted before. -/
def RunEmits (s : State) (items : List ResultItem) : Prop :=
  ∃ n t, n ≤ runBound (s.len - s.pos) ∧ stepMany n s = .next t ∧ t.phase.isTerminal = true ∧ t.rst = false ∧
    t.results = s.results ++ items

theorem one_le_runBound (n : Nat) : 1 ≤ runBound n := Nat.le_add_left 1 _

/-- A MOV's record goes in front of the items of the run after it. -/
theorem RunEmits.cons_mov {s : State} {i : Instr} {rest : List Byte} {dst src : Operand} {items : List ResultItem}
    (hs : BetweenInstructions s) (h : decode (s.bytesFrom s.pos) = .ok (i, rest)) (ho : operandsOf i = some (dst, src))
    {record : DecodedInstruction} (hrecord : record =
      { mnemonic := .mov, destinationOperand := dst, sourceOperand := src, start := s.pos, length := i.length })
    (hrun : RunEmits { s with pos := s.pos + i.length, results := s.results ++ [.instruction record], cur := none } items) :
    RunEmits s (.instruction record :: items) := by
  subst hrecord
  obtain ⟨n, t, hn, hsteps, hp, hr, hres⟩ := hrun
  refine ⟨transitionCount i + n, t, ?_, ?_, hp, hr, by simpa using hres⟩
  · have hcount := transitionCount_le i
    have hlength := length_le_of_decode h
    simp only [runBound] at hn ⊢
    omega
  · rw [stepMany_add (wholeMovEmitsItsRecord s i rest dst src hs h ho), hsteps]

theorem runEmits_unrecognized {s : State} {b : Byte} {rest : List Byte} (hs : BetweenInstructions s)
    (h : decode (s.bytesFrom s.pos) = .ok (.unrecognized b, rest)) :
    RunEmits s [.outcome (.unrecognizedOpcode b s.pos)] := by
  obtain ⟨t, hd, hsame, -⟩ := exists_decided hs h
  refine ⟨1, _, one_le_runBound _, hd.stepMany_unrecognized, rfl, hsame.rst, ?_⟩
  rw [raise_results, ← hsame.results]
  rfl

theorem runEmits_invalid {s : State} {w : Bool} {b : Byte} {rest : List Byte} (hs : BetweenInstructions s)
    (h : decode (s.bytesFrom s.pos) = .ok (.invalid w b, rest)) :
    RunEmits s [.outcome (.invalidFieldCombination b (s.pos + 1) s.pos)] := by
  obtain ⟨t, hd, hsame, -⟩ := exists_decided hs h
  refine ⟨2, _, ?_, hd.stepMany_invalid.2, rfl, hsame.rst, ?_⟩
  · have hlength : 2 ≤ s.len - s.pos := length_le_of_decode h
    simp only [runBound]
    omega
  · rw [raise_results, consumeByte_results, hsame.results]

theorem runEmits_endOfStream {s : State} (hs : BetweenInstructions s) (hend : s.len ≤ s.pos) :
    RunEmits s [.outcome .endOfStream] := by
  obtain ⟨hr, hp, -⟩ := hs
  have hstep := step_of_transition (.endOfStream hr hp hend.not_gt)
  exact ⟨1, _, one_le_runBound _, stepMany_succ_of_step hstep 0, rfl, hr, rfl⟩

theorem runEmits_truncated {s : State} {consumed : Nat} (hr : s.rst = false)
    (h : decode (s.bytesFrom s.pos) = .error (.truncated consumed)) (htrunc : Truncates s consumed) :
    RunEmits s [.outcome (.truncatedInstruction (s.pos + consumed) s.pos)] := by
  obtain ⟨n, t, u, hn, hgathers, hstep, hp, hres⟩ := htrunc
  obtain ⟨-, hmax, -⟩ := completesToMov_of_truncated h
  rw [length_bytesFrom] at hmax
  have hsame := hgathers.sameOutside hr
  refine ⟨n + 1, u, ?_, ?_, by rw [hp]; rfl, ?_, by rw [hres, hsame.results]⟩
  · simp only [runBound]
    omega
  · rw [stepMany_add hgathers.stepMany_eq, stepMany_succ_of_step hstep]
    rfl
  · exact (step_transition hstep).keeps_rst.elim id (·.trans hsame.rst)

/-- R208: by induction on the items still to come, each of which takes at least one byte. -/
theorem runEmits_itemsOf {fuel : Nat} {s : State} (hs : BetweenInstructions s) (hfuel : s.len - s.pos < fuel) :
    RunEmits s (itemsOf fuel s.pos (s.bytesFrom s.pos)) := by
  induction fuel generalizing s with
  | zero => omega
  | succ fuel ih =>
    have hfollows := follows_decode hs
    cases hdecode : decode (s.bytesFrom s.pos) with
    | error e =>
      rw [hdecode] at hfollows
      cases hfollows with
      | endOfBytes hend =>
        rw [itemsOf_of_outcome (final := .endOfStream) (by rw [outcomeOf, hdecode])]
        exact runEmits_endOfStream hs hend
      | truncated consumed htrunc =>
        rw [itemsOf_of_outcome (final := .truncatedInstruction (s.pos + consumed) s.pos) (by rw [outcomeOf, hdecode])]
        exact runEmits_truncated hs.1 hdecode htrunc
    | ok decoded =>
      obtain ⟨i, rest⟩ := decoded
      obtain ⟨⟨dst, src⟩, ho⟩ | ⟨w, b, rfl⟩ | ⟨b, rfl⟩ := instr_cases i
      · obtain ⟨-, -, -, hrest⟩ := exists_decided hs hdecode
        have hlength := length_le_of_decode hdecode
        have hpos := length_pos i
        rw [itemsOf_of_mov hdecode ho, hrest]
        refine .cons_mov hs hdecode ho rfl (ih hs ?_)
        show s.len - (s.pos + i.length) < fuel
        omega
      · rw [itemsOf_of_outcome (final := .invalidFieldCombination b (s.pos + 1) s.pos) (by rw [outcomeOf, hdecode])]
        exact runEmits_invalid hs hdecode
      · rw [itemsOf_of_outcome (final := .unrecognizedOpcode b s.pos) (by rw [outcomeOf, hdecode])]
        exact runEmits_unrecognized hs hdecode

/-- A terminal phase answers any number of further steps, and only the cursor ports differ. -/
theorem exists_stepMany_terminal {s : State} (hr : s.rst = false) (hp : s.phase.isTerminal = true) (n : Nat) :
    ∃ u, stepMany n s = .next u ∧ sameButCursor u s := by
  have hanswers : ∃ u, stepMany n s = .next u := by
    induction n generalizing s with
    | zero => exact ⟨s, rfl⟩
    | succ n ih =>
      rw [stepMany_succ_of_step (step_terminal hr hp)]
      exact ih (s := idleCursor s) hr hp
  obtain ⟨u, hu⟩ := hanswers
  exact ⟨u, hu, stepMany_terminal hu hr hp⟩

theorem sameButCursor.phase_eq {t u : State} (h : sameButCursor t u) : t.phase = u.phase := by
  have hphase := congrArg State.phase h
  exact hphase

/-- Settles O53: the run ends within the bound, and the steps that are left only idle. -/
theorem runIsTheDecodingOfItsBytes : Obligations.RunIsTheDecodingOfItsBytes := by
  intro bytes
  obtain ⟨hbytes, -, -⟩ := loadedBufferHoldsItsBytes bytes
  obtain ⟨n, t, hn, hrun, hp, hr, hres⟩ :=
    runEmits_itemsOf (s := powerOn bytes) (fuel := bytes.length + 1) ⟨rfl, rfl, rfl⟩ (Nat.lt_succ_self _)
  obtain ⟨k, hk⟩ := Nat.exists_eq_add_of_le hn
  obtain ⟨u, hu, hsame⟩ := exists_stepMany_terminal hr hp k
  refine ⟨u, ?_, by rw [hsame.phase_eq, hp], ?_⟩
  · show stepMany (runBound bytes.length) (powerOn bytes) = _
    rw [show runBound bytes.length = n + k from hk, stepMany_add hrun, hu]
  · rw [hsame.results_eq, hres]
    show itemsOf (bytes.length + 1) 0 ((powerOn bytes).bytesFrom 0) = _
    rw [hbytes]

end Sys2Proof.Machine
